-- ==== Sys2Proof/Word.lean ====
section
/-! DEFINITION. The word types of the core: R10 (8-bit registers and memory cells, 16-bit words and addresses)
and R62 (4-bit register numbers). -/

namespace Sys2Proof

/-- A general register, a timer, a memory cell, the immediate `kk` (R10, R62). -/
abbrev Byte := BitVec 8

/-- The instruction word, `pc`, `I`, a saved return address (R10, R60). -/
abbrev Word := BitVec 16

/-- A register number `x` or `y`: 0 to 15, so no encoding names a register that does not exist (R62). -/
abbrev RegNum := Fin 16

end Sys2Proof
end

