-- ==== Sys2Proof/Syntax.lean ====
section
/-! DEFINITION. The instructions: one constructor per row of spec/opcode_table.json, in the table's order (R66).
A field `ign` holds the bits the dispatch does not examine (R64); no meaning reads it. `y` of the two shifts is decoded
and ignored (R108, R110). The no-op of the unmapped words (R85) is no row of the table and so no constructor: the
decoder answers none for them. -/

namespace Sys2Proof

inductive Instr where
  /-- `00E0` CLS (R120); bits 11 to 4 ignored. -/
  | cls (ign : BitVec 8)
  /-- `00EE` RET (R90); bits 11 to 4 ignored. -/
  | ret (ign : BitVec 8)
  /-- `1nnn` JP nnn (R91). -/
  | jp (nnn : BitVec 12)
  /-- `2nnn` CALL nnn (R93). -/
  | call (nnn : BitVec 12)
  /-- `3xkk` SE Vx, kk (R94). -/
  | seKk (x : RegNum) (kk : Byte)
  /-- `4xkk` SNE Vx, kk (R95). -/
  | sneKk (x : RegNum) (kk : Byte)
  /-- `5xy0` SE Vx, Vy (R96); bits 3 to 0 ignored. -/
  | seReg (x y : RegNum) (ign : BitVec 4)
  /-- `6xkk` LD Vx, kk (R100). -/
  | ldKk (x : RegNum) (kk : Byte)
  /-- `7xkk` ADD Vx, kk (R101). -/
  | addKk (x : RegNum) (kk : Byte)
  /-- `8xy0` LD Vx, Vy (R102). -/
  | ldReg (x y : RegNum)
  /-- `8xy1` OR Vx, Vy (R103). -/
  | orReg (x y : RegNum)
  /-- `8xy2` AND Vx, Vy (R104). -/
  | andReg (x y : RegNum)
  /-- `8xy3` XOR Vx, Vy (R105). -/
  | xorReg (x y : RegNum)
  /-- `8xy4` ADD Vx, Vy (R106). -/
  | addReg (x y : RegNum)
  /-- `8xy5` SUB Vx, Vy (R107). -/
  | subReg (x y : RegNum)
  /-- `8xy6` SHR Vx (R108); `y` decoded and ignored. -/
  | shr (x y : RegNum)
  /-- `8xy7` SUBN Vx, Vy (R109). -/
  | subnReg (x y : RegNum)
  /-- `8xyE` SHL Vx (R110); `y` decoded and ignored. -/
  | shl (x y : RegNum)
  /-- `9xy0` SNE Vx, Vy (R97); bits 3 to 0 ignored. -/
  | sneReg (x y : RegNum) (ign : BitVec 4)
  /-- `Annn` LD I, nnn (R140). -/
  | ldI (nnn : BitVec 12)
  /-- `Bnnn` JP V0, nnn (R92). -/
  | jpV0 (nnn : BitVec 12)
  /-- `Cxkk` RND Vx, kk (R111). -/
  | rnd (x : RegNum) (kk : Byte)
  /-- `Dxyn` DRW Vx, Vy, n (R121); `n` is the row count 0 to 15. -/
  | drw (x y : RegNum) (n : Fin 16)
  /-- `Ex9E` SKP Vx (R130); bits 7 to 4 ignored. -/
  | skp (x : RegNum) (ign : BitVec 4)
  /-- `ExA1` SKNP Vx (R131); bits 7 to 4 ignored. -/
  | sknp (x : RegNum) (ign : BitVec 4)
  /-- `Fx07` LD Vx, DT (R132). -/
  | ldVxDt (x : RegNum)
  /-- `Fx0A` LD Vx, K (R133). -/
  | ldVxK (x : RegNum)
  /-- `Fx15` LD DT, Vx (R134). -/
  | ldDtVx (x : RegNum)
  /-- `Fx18` LD ST, Vx (R135). -/
  | ldStVx (x : RegNum)
  /-- `Fx1E` ADD I, Vx (R141). -/
  | addI (x : RegNum)
  /-- `Fx29` LD F, Vx (R142). -/
  | ldF (x : RegNum)
  /-- `Fx33` LD B, Vx (R143). -/
  | ldB (x : RegNum)
  /-- `Fx55` LD [I], Vx (R144). -/
  | ldMemVx (x : RegNum)
  /-- `Fx65` LD Vx, [I] (R145). -/
  | ldVxMem (x : RegNum)
deriving DecidableEq, Repr

end Sys2Proof
end

