-- ==== Sys2Proof/WellFormed.lean ====
section
/-! DEFINITION. Well-formed instructions: those an assembler writes (R64, R73). Register numbers, immediates and
heights are in range by their types (R62), so what is left to check is that the bits the dispatch ignores hold their
canonical value. An instruction that fails the check still decodes and executes (R64). -/

namespace Sys2Proof

/-- The same instruction with its ignored bits at their canonical values: `00E0`, `00EE`, `5xy0`, `9xy0`, `Ex9E`,
`ExA1` (R64). The `y` of a shift is the programmer's to choose and stays. -/
def Instr.canonical : Instr → Instr
  | .cls _ => .cls 0x0E#8
  | .ret _ => .ret 0x0E#8
  | .seReg x y _ => .seReg x y 0x0#4
  | .sneReg x y _ => .sneReg x y 0x0#4
  | .skp x _ => .skp x 0x9#4
  | .sknp x _ => .sknp x 0xA#4
  | i => i

/-- The instruction has the canonical encoding of R64. -/
def Instr.wellFormed (i : Instr) : Bool := i.canonical == i

end Sys2Proof
end

