-- ==== Sys2Proof/Decode.lean ====
section
/-! DEFINITION. The decoder, total on any bytes (R82), the opcode map as a list of rows (R66), and after them the
encoder. The decoder is the two-level dispatch of R65: the leading nibble, then the low nibble (families 0, 8, E) or the
low byte (family F). PRESUMED (log 1): the opcode numbers and the field positions are the spec's, marked there as
general knowledge. -/

namespace Sys2Proof

/-! Fields of the instruction word (R62). -/

/-- `op = ir[15:12]`, the first-level key. -/
def opField (w : Word) : BitVec 4 := w.extractLsb' 12 4
/-- `x = ir[11:8]`. -/
def xField (w : Word) : RegNum := (w.extractLsb' 8 4).toFin
/-- `y = ir[7:4]`. -/
def yField (w : Word) : RegNum := (w.extractLsb' 4 4).toFin
/-- `n = ir[3:0]`, the sprite height. -/
def nField (w : Word) : Fin 16 := (w.extractLsb' 0 4).toFin
/-- `kk = ir[7:0]`, the byte immediate and the secondary key of family F. -/
def kkField (w : Word) : Byte := w.extractLsb' 0 8
/-- `nnn = ir[11:0]`. -/
def nnnField (w : Word) : BitVec 12 := w.extractLsb' 0 12
/-- `sub = ir[3:0]`, the secondary key of families 0, 8 and E. -/
def subField (w : Word) : BitVec 4 := w.extractLsb' 0 4
/-- `ir[11:4]`, ignored by family 0. -/
def midByte (w : Word) : BitVec 8 := w.extractLsb' 4 8
/-- `ir[7:4]` as bits, ignored by family E. -/
def midNibble (w : Word) : BitVec 4 := w.extractLsb' 4 4

/-! The second-level tables (R65). An unmapped key is none. -/

/-- `T0`, keyed by the low nibble. -/
def decodeT0 (w : Word) : Option Instr :=
  match subField w with
  | 0x0#4 => some (.cls (midByte w))
  | 0xE#4 => some (.ret (midByte w))
  | _ => none

/-- `T8`, keyed by the low nibble. -/
def decodeT8 (w : Word) : Option Instr :=
  match subField w with
  | 0x0#4 => some (.ldReg (xField w) (yField w))
  | 0x1#4 => some (.orReg (xField w) (yField w))
  | 0x2#4 => some (.andReg (xField w) (yField w))
  | 0x3#4 => some (.xorReg (xField w) (yField w))
  | 0x4#4 => some (.addReg (xField w) (yField w))
  | 0x5#4 => some (.subReg (xField w) (yField w))
  | 0x6#4 => some (.shr (xField w) (yField w))
  | 0x7#4 => some (.subnReg (xField w) (yField w))
  | 0xE#4 => some (.shl (xField w) (yField w))
  | _ => none

/-- `TE`, keyed by the low nibble. -/
def decodeTE (w : Word) : Option Instr :=
  match subField w with
  | 0x1#4 => some (.sknp (xField w) (midNibble w))
  | 0xE#4 => some (.skp (xField w) (midNibble w))
  | _ => none

/-- `TF`, keyed by the low byte; nine mapped keys (C1). -/
def decodeTF (w : Word) : Option Instr :=
  match kkField w with
  | 0x07#8 => some (.ldVxDt (xField w))
  | 0x0A#8 => some (.ldVxK (xField w))
  | 0x15#8 => some (.ldDtVx (xField w))
  | 0x18#8 => some (.ldStVx (xField w))
  | 0x1E#8 => some (.addI (xField w))
  | 0x29#8 => some (.ldF (xField w))
  | 0x33#8 => some (.ldB (xField w))
  | 0x55#8 => some (.ldMemVx (xField w))
  | 0x65#8 => some (.ldVxMem (xField w))
  | _ => none

/-- `T1`, keyed by the leading nibble (R65, R82). None is an unmapped word, which executes as the no-op of R85. -/
def decodeWord (w : Word) : Option Instr :=
  match opField w with
  | 0x0#4 => decodeT0 w
  | 0x1#4 => some (.jp (nnnField w))
  | 0x2#4 => some (.call (nnnField w))
  | 0x3#4 => some (.seKk (xField w) (kkField w))
  | 0x4#4 => some (.sneKk (xField w) (kkField w))
  | 0x5#4 => some (.seReg (xField w) (yField w) (subField w))
  | 0x6#4 => some (.ldKk (xField w) (kkField w))
  | 0x7#4 => some (.addKk (xField w) (kkField w))
  | 0x8#4 => decodeT8 w
  | 0x9#4 => some (.sneReg (xField w) (yField w) (subField w))
  | 0xA#4 => some (.ldI (nnnField w))
  | 0xB#4 => some (.jpV0 (nnnField w))
  | 0xC#4 => some (.rnd (xField w) (kkField w))
  | 0xD#4 => some (.drw (xField w) (yField w) (nField w))
  | 0xE#4 => decodeTE w
  | 0xF#4 => decodeTF w
  | _ => none

/-- Why the decoder gives no instruction. -/
inductive DecodeReject where
  /-- Fewer than two bytes (R60). -/
  | truncated
  /-- No handler is registered for the word (R70). -/
  | unmapped (w : Word)
deriving DecidableEq, Repr

/-- Two bytes as an instruction word, the byte at the lower address in bits 15 to 8: `(high << 8) | low` (R42). -/
def wordOfBytes (hi lo : Byte) : Word := hi.setWidth 16 <<< 8 ||| lo.setWidth 16

/-- Decode the first instruction of a byte sequence: it and the bytes after it, or the reason there is none.
Every instruction is two bytes (R60, R72). -/
def decode : List Byte → Except DecodeReject (Instr × List Byte)
  | hi :: lo :: rest =>
    match decodeWord (wordOfBytes hi lo) with
    | some i => .ok (i, rest)
    | none => .error (.unmapped (wordOfBytes hi lo))
  | _ => .error .truncated

/-- The instruction word of the table's bits `w`: every bit above `nbits` is 0 (log 21). -/
def tableWord (nbits w : Nat) : Word := BitVec.ofNat 16 (w % 2 ^ nbits)

/-- The byte at the lower address: bits 15 to 8 (R42). -/
def highByte (w : Word) : Byte := w.extractLsb' 8 8

/-- The byte at the higher address: bits 7 to 0 (R42). -/
def lowByte (w : Word) : Byte := w.extractLsb' 0 8

/-- The instruction the decoder reads from an opcode-table row's bits, laid out in memory order. -/
def decodeTableWord (nbits w : Nat) : Option Instr :=
  match decode [highByte (tableWord nbits w), lowByte (tableWord nbits w)] with
  | .ok (i, _) => some i
  | .error _ => none

/-! The opcode map as data (R66). -/

/-- A row of R66: the words `w` with `w &&& mask = pattern` execute its instruction. -/
structure OpcodeRow where
  mask    : Word
  pattern : Word
deriving DecidableEq, Repr

/-- The word belongs to the row (R65: `ir & mask == match`). -/
def OpcodeRow.hits (r : OpcodeRow) (w : Word) : Bool := w &&& r.mask == r.pattern

/-- Rows 1 to 19 of R66. -/
def opcodeRowsLow : List OpcodeRow :=
  [⟨0xF00F, 0x0000⟩, ⟨0xF00F, 0x000E⟩, ⟨0xF000, 0x1000⟩, ⟨0xF000, 0x2000⟩, ⟨0xF000, 0x3000⟩,
   ⟨0xF000, 0x4000⟩, ⟨0xF000, 0x5000⟩, ⟨0xF000, 0x6000⟩, ⟨0xF000, 0x7000⟩, ⟨0xF00F, 0x8000⟩,
   ⟨0xF00F, 0x8001⟩, ⟨0xF00F, 0x8002⟩, ⟨0xF00F, 0x8003⟩, ⟨0xF00F, 0x8004⟩, ⟨0xF00F, 0x8005⟩,
   ⟨0xF00F, 0x8006⟩, ⟨0xF00F, 0x8007⟩, ⟨0xF00F, 0x800E⟩, ⟨0xF000, 0x9000⟩]

/-- Rows 20 to 34 of R66. -/
def opcodeRowsHigh : List OpcodeRow :=
  [⟨0xF000, 0xA000⟩, ⟨0xF000, 0xB000⟩, ⟨0xF000, 0xC000⟩, ⟨0xF000, 0xD000⟩, ⟨0xF00F, 0xE00E⟩,
   ⟨0xF00F, 0xE001⟩, ⟨0xF0FF, 0xF007⟩, ⟨0xF0FF, 0xF00A⟩, ⟨0xF0FF, 0xF015⟩, ⟨0xF0FF, 0xF018⟩,
   ⟨0xF0FF, 0xF01E⟩, ⟨0xF0FF, 0xF029⟩, ⟨0xF0FF, 0xF033⟩, ⟨0xF0FF, 0xF055⟩, ⟨0xF0FF, 0xF065⟩]

/-- The 34 rows of R66, in its order. -/
def opcodeRows : List OpcodeRow := opcodeRowsLow ++ opcodeRowsHigh

/-- The number of an instruction's row in R66, counted from 0. -/
def Instr.rowIndex : Instr → Nat
  | .cls _ => 0
  | .ret _ => 1
  | .jp _ => 2
  | .call _ => 3
  | .seKk _ _ => 4
  | .sneKk _ _ => 5
  | .seReg _ _ _ => 6
  | .ldKk _ _ => 7
  | .addKk _ _ => 8
  | .ldReg _ _ => 9
  | .orReg _ _ => 10
  | .andReg _ _ => 11
  | .xorReg _ _ => 12
  | .addReg _ _ => 13
  | .subReg _ _ => 14
  | .shr _ _ => 15
  | .subnReg _ _ => 16
  | .shl _ _ => 17
  | .sneReg _ _ _ => 18
  | .ldI _ => 19
  | .jpV0 _ => 20
  | .rnd _ _ => 21
  | .drw _ _ _ => 22
  | .skp _ _ => 23
  | .sknp _ _ => 24
  | .ldVxDt _ => 25
  | .ldVxK _ => 26
  | .ldDtVx _ => 27
  | .ldStVx _ => 28
  | .addI _ => 29
  | .ldF _ => 30
  | .ldB _ => 31
  | .ldMemVx _ => 32
  | .ldVxMem _ => 33

/-! The encoder (R61, R66). -/

/-- Format `Z`: `op` = 0, ignored bits 11 to 4, `sub`. -/
def packZ (ign : BitVec 8) (sub : BitVec 4) : Word :=
  (0x0#4).setWidth 16 <<< 12 ||| ign.setWidth 16 <<< 4 ||| sub.setWidth 16
/-- Format `NNN`: `op` in bits 15 to 12, `nnn` in bits 11 to 0. -/
def packNNN (op : BitVec 4) (nnn : BitVec 12) : Word := op.setWidth 16 <<< 12 ||| nnn.setWidth 16
/-- Format `XKK`: `x` in bits 11 to 8, `kk` in bits 7 to 0; format `X` with an 8-bit `sub` is laid out the same way. -/
def packXKK (op : BitVec 4) (x : RegNum) (kk : BitVec 8) : Word :=
  op.setWidth 16 <<< 12 ||| (BitVec.ofFin (w := 4) x).setWidth 16 <<< 8 ||| kk.setWidth 16
/-- Formats `XY` and `XYN`: `y` in bits 7 to 4, and the low nibble. -/
def packXY (op : BitVec 4) (x y : RegNum) (low : BitVec 4) : Word :=
  op.setWidth 16 <<< 12 ||| (BitVec.ofFin (w := 4) x).setWidth 16 <<< 8 |||
    (BitVec.ofFin (w := 4) y).setWidth 16 <<< 4 ||| low.setWidth 16
/-- Format `X` of family E: bits 7 to 4 ignored. -/
def packXE (x : RegNum) (ign sub : BitVec 4) : Word :=
  (0xE#4).setWidth 16 <<< 12 ||| (BitVec.ofFin (w := 4) x).setWidth 16 <<< 8 ||| ign.setWidth 16 <<< 4 ||| sub.setWidth 16

/-- The word of an instruction (R66). -/
def encode : Instr → Word
  | .cls ign => packZ ign 0x0#4
  | .ret ign => packZ ign 0xE#4
  | .jp nnn => packNNN 0x1#4 nnn
  | .call nnn => packNNN 0x2#4 nnn
  | .seKk x kk => packXKK 0x3#4 x kk
  | .sneKk x kk => packXKK 0x4#4 x kk
  | .seReg x y ign => packXY 0x5#4 x y ign
  | .ldKk x kk => packXKK 0x6#4 x kk
  | .addKk x kk => packXKK 0x7#4 x kk
  | .ldReg x y => packXY 0x8#4 x y 0x0#4
  | .orReg x y => packXY 0x8#4 x y 0x1#4
  | .andReg x y => packXY 0x8#4 x y 0x2#4
  | .xorReg x y => packXY 0x8#4 x y 0x3#4
  | .addReg x y => packXY 0x8#4 x y 0x4#4
  | .subReg x y => packXY 0x8#4 x y 0x5#4
  | .shr x y => packXY 0x8#4 x y 0x6#4
  | .subnReg x y => packXY 0x8#4 x y 0x7#4
  | .shl x y => packXY 0x8#4 x y 0xE#4
  | .sneReg x y ign => packXY 0x9#4 x y ign
  | .ldI nnn => packNNN 0xA#4 nnn
  | .jpV0 nnn => packNNN 0xB#4 nnn
  | .rnd x kk => packXKK 0xC#4 x kk
  | .drw x y n => packXY 0xD#4 x y (BitVec.ofFin (w := 4) n)
  | .skp x ign => packXE x ign 0xE#4
  | .sknp x ign => packXE x ign 0x1#4
  | .ldVxDt x => packXKK 0xF#4 x 0x07#8
  | .ldVxK x => packXKK 0xF#4 x 0x0A#8
  | .ldDtVx x => packXKK 0xF#4 x 0x15#8
  | .ldStVx x => packXKK 0xF#4 x 0x18#8
  | .addI x => packXKK 0xF#4 x 0x1E#8
  | .ldF x => packXKK 0xF#4 x 0x29#8
  | .ldB x => packXKK 0xF#4 x 0x33#8
  | .ldMemVx x => packXKK 0xF#4 x 0x55#8
  | .ldVxMem x => packXKK 0xF#4 x 0x65#8

/-- The bytes of an instruction, in memory order (R42). -/
def encodeBytes (i : Instr) : List Byte := [highByte (encode i), lowByte (encode i)]

end Sys2Proof
end

