-- ==== Sys2Proof/Config.lean ====
section
/-! DEFINITION. What the spec leaves to an implementation (R5, the rows marked OPEN) and the free values.
The defaults of the parameters stand in Machine/Params.lean. -/

namespace Sys2Proof

/-- The OPEN parameters of R5 that a rule reads. `fontBase` is `FONT_BASE`: its bound 433 is the spec's
constraint `FONT_BASE + 80 <= 0x200`. `font` is `FONT`, 16 glyphs of 5 bytes (R47). They are fixed for a session
(R23). DESIGN CHOICE (log 3): they are carried as plain data in State, so every claim holds for every value. -/
structure Config.Params where
  fontBase : Fin 433
  font     : Vector Byte 80
deriving DecidableEq, Repr

/-- The free random byte of a step for which the host supplied none (R34, R111: any of the 256 values, under no
law; log 4). No body: nothing can be proved about a value of it. -/
opaque Config.freeRnd : Nat → Byte

end Sys2Proof
end

