-- ==== Sys2Proof/Machine/Params.lean ====
section
/-! DEFINITION. The default values of the OPEN parameters (R5, R47, R48) and the reset contents of memory they give
(R170). DESIGN CHOICE (log 3): the defaults are the spec's own, from general knowledge; no rule of the instruction set
depends on them. -/

namespace Sys2Proof.Machine

/-- The address the program is loaded at and the reset value of `pc` (R5, R13). -/
def progBase : Word := 0x200#16

/-- The number of memory cells (R5, R40). -/
def memSize : Nat := 4096

/-- The largest image (R5, R32). -/
def progMax : Nat := 3584

/-- Glyphs 0 to 7 of the default font (R48). -/
def defaultFontLow : List Byte :=
  [0xF0, 0x90, 0x90, 0x90, 0xF0,  0x20, 0x60, 0x20, 0x20, 0x70,
   0xF0, 0x10, 0xF0, 0x80, 0xF0,  0xF0, 0x10, 0xF0, 0x10, 0xF0,
   0x90, 0x90, 0xF0, 0x10, 0x10,  0xF0, 0x80, 0xF0, 0x10, 0xF0,
   0xF0, 0x80, 0xF0, 0x90, 0xF0,  0xF0, 0x10, 0x20, 0x40, 0x40]

/-- Glyphs 8 to F of the default font (R48). -/
def defaultFontHigh : List Byte :=
  [0xF0, 0x90, 0xF0, 0x90, 0xF0,  0xF0, 0x90, 0xF0, 0x10, 0xF0,
   0xF0, 0x90, 0xF0, 0x90, 0x90,  0xE0, 0x90, 0xE0, 0x90, 0xE0,
   0xF0, 0x80, 0x80, 0x80, 0xF0,  0xE0, 0x90, 0x90, 0x90, 0xE0,
   0xF0, 0x80, 0xF0, 0x80, 0xF0,  0xF0, 0x80, 0xF0, 0x80, 0x80]

/-- The default parameters of R5: `FONT_BASE = 0x050` and the table of R48. -/
def defaultParams : Config.Params where
  fontBase := 0x050
  font     := Vector.ofFn fun j : Fin 80 => (defaultFontLow ++ defaultFontHigh).getD j.val 0

/-- What memory holds after `Reset` (R170): the font at `FONT_BASE`, every other cell 0x00. This is also what an
address that memory does not list reads as (log 20). -/
def resetByte (p : Config.Params) (a : Nat) : Byte :=
  if p.fontBase.val ≤ a ∧ a < p.fontBase.val + 80 then p.font.toList.getD (a - p.fontBase.val) 0 else 0

end Sys2Proof.Machine
end

