-- ==== Sys2Proof/Machine/Memory.lean ====
section
/-! DEFINITION. The memory `M` (R20, R40): 4096 byte cells, held as the list of the cells that differ from their reset
contents, in one canonical form: addresses strictly rising, every address below 4096, no entry equal to what an unlisted
address reads as (log 20). -/

namespace Sys2Proof.Machine

/-- The cells that differ from their reset contents, by rising address. -/
abbrev Memory := List Host.Cell

/-- The byte at an address: the listed one, else the reset contents. -/
def Memory.read (p : Config.Params) : Memory → Nat → Byte
  | [], a => resetByte p a
  | c :: m, a => if c.1 = a then c.2 else Memory.read p m a

/-- The entry a cell needs in the list: none where the value is the reset contents. -/
def Memory.entry (p : Config.Params) (a : Nat) (v : Byte) : Memory :=
  if v = resetByte p a then [] else [(a, v)]

/-- `M[a] <- v` on the list (R7 `MemWrite`), keeping the canonical form. -/
def Memory.write (p : Config.Params) : Memory → Nat → Byte → Memory
  | [], a, v => Memory.entry p a v
  | c :: m, a, v =>
    if a < c.1 then Memory.entry p a v ++ c :: m
    else if a = c.1 then Memory.entry p a v ++ m
    else c :: Memory.write p m a v

/-- `M[a + k] <- bytes[k]` for every `k`, ascending (R46). -/
def Memory.writeBytes (p : Config.Params) : Memory → Nat → List Byte → Memory
  | m, _, [] => m
  | m, a, b :: bs => Memory.writeBytes p (Memory.write p m a b) (a + 1) bs

/-- Every listed address is above `lo`, below 4096, strictly rising, and its byte differs from the reset contents. -/
def Memory.wfAbove (p : Config.Params) : Nat → Memory → Bool
  | _, [] => true
  | lo, c :: m =>
    decide (lo ≤ c.1) && decide (c.1 < memSize) && !(c.2 == resetByte p c.1) && Memory.wfAbove p (c.1 + 1) m

/-- The canonical form. -/
def Memory.wf (p : Config.Params) (m : Memory) : Bool := Memory.wfAbove p 0 m

end Sys2Proof.Machine
end

