-- ==== Sys2Proof/Machine/State.lean ====
section
/-! DEFINITION. The state of the core (R10), why a step can stop, and the state after reset (R170). -/

namespace Sys2Proof.Machine

/-- The model faults (R151): the behaviours the source calls undefined. Each is terminal and guarantees nothing about
the state (R156). All are SAFE: the model stops where a real block would do something (D9). -/
inductive Fault where
  /-- Code 1. Raised by the fetch of any step with `pc > 0xFFE`; records `pc` (R155). Safe. -/
  | fetchOutOfBounds (pc : Word)
  /-- Code 2. Raised by CALL with 16 entries saved (R152). Safe. -/
  | stackOverflow
  /-- Code 3. Raised by RET with the stack empty (R153). Safe. -/
  | stackUnderflow
  /-- Code 4. Raised by DRW, LD B, LD [I] Vx and LD Vx [I] when an address is above 4095; records the lowest such
  address (R154, D25). Safe. -/
  | indexOutOfBounds (addr : Nat)
deriving DecidableEq, Repr

/-- Why the model gives a step no meaning. -/
inductive Refusal where
  /-- Raised by an arm of exec for an instruction with no meaning yet; no arm does so in this model. Safe. -/
  | notModelled (mnemonic : String)
  /-- Raised by a step of a core whose `fault` field is set: such a core has no step (R22, R80). Safe. -/
  | coreFaulted (f : Fault)
deriving DecidableEq, Repr

/-- The framebuffer: 32 rows, row 0 at the top; column 0 is the most significant bit of a row (R19, D8, log 5). -/
abbrev Framebuffer := Vector (BitVec 64) 32

/-- The Machine State (R10), the parameters it runs under (R5, R23) and the random input of a step (R34). -/
structure State where
  /-- `V[0..15]`; `VF` is `V[15]` (R11, R12). -/
  v : Vector Byte 16
  /-- The program counter (R13). -/
  pc : Word
  /-- The index register `I` (R14). -/
  idx : Word
  /-- The call stack `S[0..15]` (R15). -/
  stack : Vector Word 16
  /-- The number of saved entries, 0 to 16 (R15, D14). -/
  sp : Fin 17
  /-- The delay timer (R16). -/
  dt : Byte
  /-- The sound timer (R17). -/
  st : Byte
  /-- The key latch; bit `k` is key `k`, 1 is pressed (R18). -/
  keys : BitVec 16
  /-- The framebuffer (R19). -/
  fb : Framebuffer
  /-- The memory (R20). -/
  mem : Memory
  /-- The instruction word of the last fetch (R21). -/
  ir : Word
  /-- The fault the core has met, if any (R22). -/
  fault : Option Fault
  /-- The parameters `FONT_BASE` and `FONT` (R5). The model's own field (log 3). -/
  params : Config.Params
  /-- The random byte the host supplied for the coming step, if it did (R34). The model's own field (log 4). -/
  rnd : Option Byte
  /-- Which free value a step without a supplied byte takes. The model's own field (log 4). -/
  rndDraws : Nat
deriving DecidableEq, Repr

/-- What a step and an instruction answer. -/
abbrev Result := Host.Outcome State Fault Refusal

/-- The state after `Reset`, for any parameters (R170, R171). The zeros of `idx`, `keys`, `fb` and `ir` are decision
D15 of the spec (log 13); `rnd` and `rndDraws` are the model's own (log 4). -/
def State.resetWith (p : Config.Params) : State where
  v        := Vector.replicate 16 0#8
  pc       := progBase
  idx      := 0#16
  stack    := Vector.replicate 16 0#16
  sp       := 0
  dt       := 0#8
  st       := 0#8
  keys     := 0#16
  fb       := Vector.replicate 32 0#64
  mem      := []
  ir       := 0#16
  fault    := none
  params   := p
  rnd      := none
  rndDraws := 0

/-- The state after `Reset` under the default parameters (log 3). -/
def State.reset : State := State.resetWith defaultParams

end Sys2Proof.Machine
end

