-- ==== Sys2Proof/Machine/Ops.lean ====
section
/-! DEFINITION. The named operations over the state: the primitives of R7, the phases of a step that are no instruction
(R80), the call stack (R15) and raising a model fault (R151). No operation takes an exception or returns from one: the
hardware has neither (R150, R156, R165). -/

namespace Sys2Proof.Machine

/-- `raise <Fault>(info)` (R7): the step ends in the fault and nothing of the state is guaranteed (R156). -/
def raise (f : Fault) : Result := .fault f

/-- The code this spec gives a fault (R151). -/
def Fault.code : Fault → Nat
  | .fetchOutOfBounds _ => 1
  | .stackOverflow => 2
  | .stackUnderflow => 3
  | .indexOutOfBounds _ => 4

/-! Registers (R7, R11). -/

/-- Read `V[r]`. -/
def State.reg (s : State) (r : RegNum) : Byte := s.v[r]
/-- `V[r] <- b`. -/
def State.setReg (s : State) (r : RegNum) (b : Byte) : State := { s with v := s.v.set r b }
/-- All general registers at once. -/
def State.setRegs (s : State) (v : Vector Byte 16) : State := { s with v := v }
/-- The number of the flag register `VF` (R12). -/
def vf : RegNum := 0xF
/-- `pc <- t`. -/
def State.setPc (s : State) (t : Word) : State := { s with pc := t }
/-- `I <- v`. -/
def State.setIdx (s : State) (v : Word) : State := { s with idx := v }
/-- `DT <- b`. -/
def State.setDt (s : State) (b : Byte) : State := { s with dt := b }
/-- `ST <- b`. -/
def State.setSt (s : State) (b : Byte) : State := { s with st := b }
/-- `ir <- w`. -/
def State.setIr (s : State) (w : Word) : State := { s with ir := w }
/-- Replace the framebuffer. -/
def State.setFb (s : State) (fb : Framebuffer) : State := { s with fb := fb }
/-- Replace the memory. -/
def State.setMem (s : State) (m : Memory) : State := { s with mem := m }
/-- Read key latch bit `K[k]` (R18). -/
def State.key (s : State) (k : Nat) : Bool := s.keys.getLsbD k
/-- Read `S[j]` (R15). -/
def State.stackAt (s : State) (j : Fin 16) : Word := s.stack[j]
/-- Read the cell `FB[y][x]`, column `x` counted from the left and row `y` from the top (R19, D8). -/
def State.pixel (s : State) (x : Fin 64) (y : Fin 32) : Bool := s.fb[y].getMsbD x.val

/-! Memory (R7, R44, R46). -/

/-- `MemRead(a, 1)`: the byte `M[a]`. Every caller has checked that `a` is at most 4095. -/
def State.byteAt (s : State) (a : Nat) : Byte := Memory.read s.params s.mem a

/-- Every address of an access of `n` bytes through `I` is at most 4095, with the effective address the natural number
`I + k` (R44, D10). No byte, no check (R151). -/
def State.indexInBounds (s : State) (n : Nat) : Bool := n == 0 || decide (s.idx.toNat + n ≤ memSize)

/-- The lowest address above 4095 of an access through `I` that leaves memory: `max(I, 4096)` (R151, D25). -/
def State.lowestOffending (s : State) : Nat := max s.idx.toNat memSize

/-- Read the `n` bytes `M[I] .. M[I+n-1]`, ascending, after checking the whole range (R44, R46). -/
def State.readIndexed (s : State) (n : Nat) : Except Fault (List Byte) :=
  if s.indexInBounds n then .ok ((List.range n).map fun k => s.byteAt (s.idx.toNat + k))
  else .error (.indexOutOfBounds s.lowestOffending)

/-- `M[I + k] <- bytes[k]`, ascending, after checking the whole range (R44, R46). -/
def State.writeIndexed (s : State) (bytes : List Byte) : Except Fault State :=
  if s.indexInBounds bytes.length then
    .ok (s.setMem (Memory.writeBytes s.params s.mem s.idx.toNat bytes))
  else .error (.indexOutOfBounds s.lowestOffending)

/-! The call stack (R15, D14). -/

/-- Push a return address: `S[SP] <- t; SP <- SP + 1`. With 16 entries saved it is `StackOverflow` (R152). -/
def State.push (s : State) (t : Word) : Except Fault State :=
  if h : s.sp.val < 16 then .ok { s with stack := s.stack.set s.sp.val t h, sp := ⟨s.sp.val + 1, by omega⟩ }
  else .error .stackOverflow

/-- Pop a return address into `pc`: `SP <- SP - 1; pc <- S[SP]`; the entry keeps its value. With none saved it is
`StackUnderflow` (R153). -/
def State.popPc (s : State) : Except Fault State :=
  if h : s.sp.val = 0 then .error .stackUnderflow
  else .ok { s with sp := ⟨s.sp.val - 1, by omega⟩, pc := s.stack[s.sp.val - 1]'(by omega) }

/-! The phases of a step around the instruction (R80). -/

/-- Fetch is in bounds: both bytes of the word are inside memory (R45). -/
def State.fetchInBounds (s : State) : Bool := decide (s.pc.toNat ≤ 0xFFE)

/-- `MemRead(pc, 2)`, big-endian (R42). -/
def State.fetchWord (s : State) : Word := wordOfBytes (s.byteAt s.pc.toNat) (s.byteAt (s.pc.toNat + 1))

/-- Fetch and advance: `ir <- MemRead(pc, 2); pc <- pc + 2` (R80, R81). The instruction runs in the state this leaves. -/
def State.fetched (s : State) : State := (s.setIr s.fetchWord).setPc (s.pc + 2#16)

/-- A timer after its tick: one less, and 0 stays 0 (R84). -/
def tickDown (b : Byte) : Byte := if b = 0#8 then 0#8 else b - 1#8

/-- The timer tick: `DT`, then `ST` (R84). -/
def State.tick (s : State) : State := (s.setDt (tickDown s.dt)).setSt (tickDown s.st)

/-- The random byte of this step, `rnd` (R34): the one the host supplied, else a free value (log 4). -/
def State.rndByte (s : State) : Byte := s.rnd.getD (Config.freeRnd s.rndDraws)

/-- The step's random byte is used up, whether an instruction read it or not (R34, log 4). -/
def State.consumeRnd (s : State) : State := { s with rnd := none, rndDraws := s.rndDraws + 1 }

/-- What ends every step that did not fault (R84): the timer tick; and the random input is used up. -/
def State.endStep (s : State) : State := s.tick.consumeRnd

/-! Placing an instruction where the next step fetches it. -/

/-- The memory with an instruction word at an address, its high byte first (R42); no change where the word does not fit
below 4096 (log 21). -/
def State.placeWord (s : State) (a : Nat) (w : Word) : State :=
  if a + 2 ≤ memSize then s.setMem (Memory.writeBytes s.params s.mem a [highByte w, lowByte w]) else s

end Sys2Proof.Machine
end

