-- ==== Sys2Proof/Machine/Operands.lean ====
section
/-! DEFINITION. The operand forms (R63): zero-extended immediates and registers, the skip, the key a register names,
the font address, the decimal digits, the registers `V[0]` to `V[x]` as bytes. -/

namespace Sys2Proof.Machine

/-- A 12-bit address as a 16-bit value (R63). -/
def addr16 (nnn : BitVec 12) : Word := nnn.setWidth 16

/-- A byte as a 16-bit value (R7 `zext_16`). -/
def zext16 (b : Byte) : Word := b.setWidth 16

/-- Add a further 2 to the advanced `pc` when the condition holds (R13, R94). -/
def State.skipIf (s : State) (c : Bool) : State := if c then s.setPc (s.pc + 2#16) else s

/-- Roll the advanced `pc` back to the instruction's own address (R133). -/
def State.rollBack (s : State) : State := s.setPc (s.pc - 2#16)

/-- The key a register value names: the value modulo 16 (R130). -/
def keyIndex (b : Byte) : Nat := b.toNat % 16

/-- The pressed key of the lowest number, if any key is pressed (R133). -/
def State.firstKey (s : State) : Option Nat := (List.range 16).find? s.key

/-- `FONT_BASE + 5 * v`, the whole register value, not masked (R142, D23). -/
def State.glyphAddr (s : State) (b : Byte) : Word := BitVec.ofNat 16 (s.params.fontBase.val + 5 * b.toNat)

/-- The hundreds, tens and ones digits, one byte each (R143). -/
def bcdDigits (b : Byte) : List Byte :=
  [BitVec.ofNat 8 (b.toNat / 100), BitVec.ofNat 8 (b.toNat / 10 % 10), BitVec.ofNat 8 (b.toNat % 10)]

/-- `V[0]` to `V[x]`, in that order (R144). -/
def State.regsUpTo (s : State) (x : RegNum) : List Byte := s.v.toList.take (x.val + 1)

/-- The registers with `V[k] <- bytes[k]` for every `k` the list has; the others keep their values (R145). -/
def loadRegs (v : Vector Byte 16) (bytes : List Byte) : Vector Byte 16 :=
  Vector.ofFn fun k : RegNum => bytes.getD k.val v[k]

end Sys2Proof.Machine
end

