-- ==== Sys2Proof/Machine/Flags.lean ====
section
/-! DEFINITION. Every flag computation (R12, R112) and the write order of a flag and a result (R8). Arithmetic is on
natural numbers and is reduced when it is stored (R6). -/

namespace Sys2Proof.Machine

/-- A flag as it stands in `VF`: exactly 0x00 or 0x01 (R12). -/
def flagByte (c : Bool) : Byte := if c then 1#8 else 0#8

/-- Carry: the unsigned sum exceeds 255 (R106, R112). -/
def carry (a b : Byte) : Bool := decide (a.toNat + b.toNat > 255)

/-- Not-borrow: the minuend is at least the subtrahend (R107, R112). -/
def notBorrow (a b : Byte) : Bool := decide (a.toNat ≥ b.toNat)

/-- The bit a right shift moves out: bit 0 (R108). -/
def bitOutRight (a : Byte) : Bool := a.getLsbD 0

/-- The bit a left shift moves out: bit 7 (R110). -/
def bitOutLeft (a : Byte) : Bool := a.getLsbD 7

/-- `(a + b) mod 256` (R112). -/
def sum8 (a b : Byte) : Byte := BitVec.ofNat 8 (a.toNat + b.toNat)

/-- `(a - b) mod 256`: `a - b`, or `256 + a - b` where that is negative (R112). -/
def diff8 (a b : Byte) : Byte := BitVec.ofNat 8 (256 + a.toNat - b.toNat)

/-- `a >> 1`, filled with 0 (R108). -/
def half8 (a : Byte) : Byte := BitVec.ofNat 8 (a.toNat / 2)

/-- `(a << 1) mod 256`, filled with 0 (R110). -/
def double8 (a : Byte) : Byte := BitVec.ofNat 8 (a.toNat * 2)

/-- `VF <- flag; V[x] <- result`, in that order, both computed from the values before the instruction: with `x = F` the
result is what stays (R8, R12, R106; D12, log 10). -/
def State.writeFlagged (s : State) (x : RegNum) (flag : Bool) (result : Byte) : State :=
  (s.setReg vf (flagByte flag)).setReg x result

end Sys2Proof.Machine
end

