-- ==== Sys2Proof/Machine/Alu.lean ====
section
/-! DEFINITION. Register loads, the ALU and the random instruction (spec/42, R100 to R112). Operands are read before any
write; a flag is written before the result (R8). None raises a fault. -/

namespace Sys2Proof.Machine

/-- `6xkk` LD Vx, kk (R100). -/
def execLdKk (x : RegNum) (kk : Byte) (s : State) : Result := .next (s.setReg x kk)

/-- `7xkk` ADD Vx, kk: no flag (R101). -/
def execAddKk (x : RegNum) (kk : Byte) (s : State) : Result := .next (s.setReg x (sum8 (s.reg x) kk))

/-- `8xy0` LD Vx, Vy (R102). -/
def execLdReg (x y : RegNum) (s : State) : Result := .next (s.setReg x (s.reg y))

/-- `8xy1` OR Vx, Vy: no flag (R103, C2). -/
def execOrReg (x y : RegNum) (s : State) : Result := .next (s.setReg x (s.reg x ||| s.reg y))

/-- `8xy2` AND Vx, Vy: no flag (R104, C2). -/
def execAndReg (x y : RegNum) (s : State) : Result := .next (s.setReg x (s.reg x &&& s.reg y))

/-- `8xy3` XOR Vx, Vy: no flag (R105, C2). -/
def execXorReg (x y : RegNum) (s : State) : Result := .next (s.setReg x (s.reg x ^^^ s.reg y))

/-- `8xy4` ADD Vx, Vy (R106). -/
def execAddReg (x y : RegNum) (s : State) : Result :=
  .next (s.writeFlagged x (carry (s.reg x) (s.reg y)) (sum8 (s.reg x) (s.reg y)))

/-- `8xy5` SUB Vx, Vy: the minuend is `V[x]` (R107). -/
def execSubReg (x y : RegNum) (s : State) : Result :=
  .next (s.writeFlagged x (notBorrow (s.reg x) (s.reg y)) (diff8 (s.reg x) (s.reg y)))

/-- `8xy6` SHR Vx: in place, `V[y]` plays no part (R108). -/
def execShr (x _y : RegNum) (s : State) : Result :=
  .next (s.writeFlagged x (bitOutRight (s.reg x)) (half8 (s.reg x)))

/-- `8xy7` SUBN Vx, Vy: the minuend is `V[y]` (R109). -/
def execSubnReg (x y : RegNum) (s : State) : Result :=
  .next (s.writeFlagged x (notBorrow (s.reg y) (s.reg x)) (diff8 (s.reg y) (s.reg x)))

/-- `8xyE` SHL Vx: in place, `V[y]` plays no part (R110). -/
def execShl (x _y : RegNum) (s : State) : Result :=
  .next (s.writeFlagged x (bitOutLeft (s.reg x)) (double8 (s.reg x)))

/-- `Cxkk` RND Vx, kk: the random byte of this step under a mask (R111). -/
def execRnd (x : RegNum) (kk : Byte) (s : State) : Result := .next (s.setReg x (s.rndByte &&& kk))

end Sys2Proof.Machine
end

