-- ==== Sys2Proof/Machine/ControlFlow.lean ====
section
/-! DEFINITION. Control transfer (spec/41, R90 to R98) and the no-op of the unmapped words (R85). In every meaning `pc`
has already been advanced by 2 (R81). -/

namespace Sys2Proof.Machine

/-- The handler of every unmapped word: nothing (R85). -/
def execNop (s : State) : Result := .next s

/-- `00EE` RET (R90). -/
def execRet (s : State) : Result :=
  match s.popPc with
  | .ok t => .next t
  | .error f => raise f

/-- `1nnn` JP nnn (R91). -/
def execJp (nnn : BitVec 12) (s : State) : Result := .next (s.setPc (addr16 nnn))

/-- `Bnnn` JP V0, nnn: the sum is not reduced to 12 bits (R92). -/
def execJpV0 (nnn : BitVec 12) (s : State) : Result := .next (s.setPc (addr16 nnn + zext16 (s.reg 0)))

/-- `2nnn` CALL nnn: the advanced `pc` is pushed (R93). -/
def execCall (nnn : BitVec 12) (s : State) : Result :=
  match s.push s.pc with
  | .ok t => .next (t.setPc (addr16 nnn))
  | .error f => raise f

/-- `3xkk` SE Vx, kk (R94). -/
def execSeKk (x : RegNum) (kk : Byte) (s : State) : Result := .next (s.skipIf (s.reg x == kk))

/-- `4xkk` SNE Vx, kk (R95). -/
def execSneKk (x : RegNum) (kk : Byte) (s : State) : Result := .next (s.skipIf (s.reg x != kk))

/-- `5xy0` SE Vx, Vy (R96). -/
def execSeReg (x y : RegNum) (s : State) : Result := .next (s.skipIf (s.reg x == s.reg y))

/-- `9xy0` SNE Vx, Vy (R97). -/
def execSneReg (x y : RegNum) (s : State) : Result := .next (s.skipIf (s.reg x != s.reg y))

end Sys2Proof.Machine
end

