-- ==== Sys2Proof/Machine/Display.lean ====
section
/-! DEFINITION. Clear screen, draw sprite and collision detection (spec/43, R120 to R123). -/

namespace Sys2Proof.Machine

/-- The framebuffer with every cell clear (R120). -/
def clearFb : Framebuffer := Vector.replicate 32 0#64

/-- A sprite row as a row of the frame: bit 7 of the byte at column `x0`, the columns right of the frame clipped
(R121, D8). Column 0 is the most significant bit. -/
def spriteRow (b : Byte) (x0 : Nat) : BitVec 64 := (b ++ 0#56 : BitVec 64) >>> x0

/-- Draw one sprite row at row `y`, and whether it turned a set cell off. A row below the frame is clipped (R121). -/
def drawRow (fb : Framebuffer) (x0 y : Nat) (b : Byte) : Framebuffer × Bool :=
  if h : y < 32 then (fb.set y (fb[y] ^^^ spriteRow b x0) h, (fb[y] &&& spriteRow b x0) != 0#64)
  else (fb, false)

/-- Draw sprite rows downward from row `y`; the collision is decided once for the whole sprite (R121). -/
def drawRows : Framebuffer → Nat → Nat → List Byte → Framebuffer × Bool
  | fb, _, _, [] => (fb, false)
  | fb, x0, y, b :: bs =>
    let first := drawRow fb x0 y b
    let rest := drawRows first.1 x0 (y + 1) bs
    (rest.1, first.2 || rest.2)

/-- `00E0` CLS: `VF` is not written (R120). -/
def execCls (s : State) : Result := .next (s.setFb clearFb)

/-- `Dxyn` DRW Vx, Vy, n (R121): the coordinates are read first, all `n` bytes are read and bounds-checked, clipped
rows included, and `VF` is written last (D13, log 11). -/
def execDrw (x y : RegNum) (n : Fin 16) (s : State) : Result :=
  match s.readIndexed n.val with
  | .ok rows =>
    let drawn := drawRows s.fb ((s.reg x).toNat % 64) ((s.reg y).toNat % 32) rows
    .next ((s.setFb drawn.1).setReg vf (flagByte drawn.2))
  | .error f => raise f

end Sys2Proof.Machine
end

