-- ==== Sys2Proof/Machine/IndexMemory.lean ====
section
/-! DEFINITION. The index register and the memory instructions (spec/45, R140 to R146). None changes `I` through an
access, and the whole range is checked before any effect (R44). -/

namespace Sys2Proof.Machine

/-- `Annn` LD I, nnn (R140). -/
def execLdI (nnn : BitVec 12) (s : State) : Result := .next (s.setIdx (addr16 nnn))

/-- `Fx1E` ADD I, Vx: modulo 65536, no flag (R141, D11). -/
def execAddI (x : RegNum) (s : State) : Result := .next (s.setIdx (s.idx + zext16 (s.reg x)))

/-- `Fx29` LD F, Vx (R142). -/
def execLdF (x : RegNum) (s : State) : Result := .next (s.setIdx (s.glyphAddr (s.reg x)))

/-- `Fx33` LD B, Vx (R143). -/
def execLdB (x : RegNum) (s : State) : Result :=
  match s.writeIndexed (bcdDigits (s.reg x)) with
  | .ok t => .next t
  | .error f => raise f

/-- `Fx55` LD [I], Vx (R144). -/
def execLdMemVx (x : RegNum) (s : State) : Result :=
  match s.writeIndexed (s.regsUpTo x) with
  | .ok t => .next t
  | .error f => raise f

/-- `Fx65` LD Vx, [I] (R145). -/
def execLdVxMem (x : RegNum) (s : State) : Result :=
  match s.readIndexed (x.val + 1) with
  | .ok bytes => .next (s.setRegs (loadRegs s.v bytes))
  | .error f => raise f

end Sys2Proof.Machine
end

