-- ==== Sys2Proof/Machine/KeysTimers.lean ====
section
/-! DEFINITION. Key queries, wait for key and the timer instructions (spec/44, R130 to R135). The timer tick of the step
comes after these meanings (R84). None raises a fault. -/

namespace Sys2Proof.Machine

/-- `Ex9E` SKP Vx (R130). -/
def execSkp (x : RegNum) (s : State) : Result := .next (s.skipIf (s.key (keyIndex (s.reg x))))

/-- `ExA1` SKNP Vx (R131). -/
def execSknp (x : RegNum) (s : State) : Result := .next (s.skipIf (!s.key (keyIndex (s.reg x))))

/-- `Fx07` LD Vx, DT (R132). -/
def execLdVxDt (x : RegNum) (s : State) : Result := .next (s.setReg x s.dt)

/-- `Fx0A` LD Vx, K: the lowest pressed key, or back to this instruction's own address (R133). -/
def execLdVxK (x : RegNum) (s : State) : Result :=
  match s.firstKey with
  | some k => .next (s.setReg x (BitVec.ofNat 8 k))
  | none => .next s.rollBack

/-- `Fx15` LD DT, Vx (R134). -/
def execLdDtVx (x : RegNum) (s : State) : Result := .next (s.setDt (s.reg x))

/-- `Fx18` LD ST, Vx (R135). -/
def execLdStVx (x : RegNum) (s : State) : Result := .next (s.setSt (s.reg x))

end Sys2Proof.Machine
end

