-- ==== Sys2Proof/Machine/Step.lean ====
section
/-! DEFINITION. One step of the core (R80): fetch, advance, decode and execute, timer tick. -/

namespace Sys2Proof.Machine

/-- Decode and execute (R82, R83): the handler of a mapped word, the no-op of an unmapped one. -/
def runWord (w : Word) (s : State) : Result :=
  match decodeWord w with
  | some i => exec i s
  | none => execNop s

/-- What ends a step: the timer tick, in a step that did not fault (R84). -/
def finish : Result → Result
  | .next t => .next t.endStep
  | .fault f => .fault f
  | .refused r => .refused r

/-- `Step` (R80). The random byte is in the state (R34, log 4). A core whose `fault` is set has no step (R22). -/
def step (s : State) : Host.Outcome State Fault Refusal :=
  match s.fault with
  | some f => .refused (.coreFaulted f)
  | none =>
    if s.fetchInBounds then finish (runWord s.fetchWord s.fetched)
    else raise (.fetchOutOfBounds s.pc)

/-- The state with an opcode-table row's bits stored where `step` fetches its next instruction, at `pc` (log 21). -/
def State.withFetchWord (s : State) (nbits w : Nat) : State := s.placeWord s.pc.toNat (tableWord nbits w)

end Sys2Proof.Machine
end

