-- ==== Sys2Proof/Machine/Session.lean ====
section
/-! DEFINITION. The host's side (R30 to R35): the five operations on a session, which is the core and how far the session
has come. The host acts only between steps. A signal-level form (R36) is not modelled. -/

namespace Sys2Proof.Machine

/-- How far a session has come: `Load` is allowed once, after `Reset` and before the first `Step` (R32, D20). -/
inductive Phase where
  /-- After `Reset`. -/
  | constructed
  /-- After `Load`. -/
  | loaded
  /-- After the first `Step`. -/
  | running
deriving DecidableEq, Repr

/-- The core and the phase of its session (log 16). -/
structure Session where
  core  : State
  phase : Phase
deriving DecidableEq, Repr

/-- The five operations of the host and no other (R30). -/
inductive HostOp where
  /-- `Reset` (R31). -/
  | reset
  /-- `Load(image)` (R32). -/
  | load (image : List Byte)
  /-- `SetKeys(k)` (R33). -/
  | setKeys (k : BitVec 16)
  /-- `Step(rnd)` (R34). -/
  | step (rnd : Byte)
  /-- `Inspect` (R35): the host reads the state and changes nothing. -/
  | inspect
deriving DecidableEq, Repr

/-- Why a host operation has no meaning. -/
inductive HostRefusal where
  /-- The image is longer than 3584 bytes (R32). -/
  | imageTooLong
  /-- `Load` after a `Load` or a `Step` (R32, D20). -/
  | loadOutOfOrder
  /-- `Step` of a faulted core (R22, R34), or a step the core refuses. -/
  | noStep
deriving DecidableEq, Repr

/-- `Reset` (R170): the parameters are those of the session's machine (R23), and the free random values go on
(log 4). -/
def State.resetAgain (s : State) : State := { State.resetWith s.params with rndDraws := s.rndDraws }

/-- `K[j] <- k[j]` for every `j` (R33). -/
def State.setKeys (s : State) (k : BitVec 16) : State := { s with keys := k }

/-- The host supplies the random byte of the coming step (R34). -/
def State.supplyRnd (s : State) (r : Byte) : State := { s with rnd := some r }

/-- `M[0x200 + j] <- image[j]` for every `j` (R32). -/
def State.loadImage (s : State) (image : List Byte) : State :=
  s.setMem (Memory.writeBytes s.params s.mem progBase.toNat image)

/-- The state after a step that met a fault: `fault` is set and nothing else is guaranteed (R22, R156), so every other
part comes from `any`, a state nothing constrains. The parameters and the draws are no state of the hardware and
stay (log 7). -/
def State.afterFault (s any : State) (f : Fault) : State :=
  { any with fault := some f, params := s.params, rndDraws := s.rndDraws }

/-- One host operation on a session. `any` is the state a fault leaves (R156): a claim about the session holds for
every `any`. -/
def Session.apply (any : State) (op : HostOp) (c : Session) : Except HostRefusal Session :=
  match op with
  | .reset => .ok ⟨c.core.resetAgain, .constructed⟩
  | .load image =>
    if image.length > progMax then .error .imageTooLong
    else if c.phase = .constructed then .ok ⟨c.core.loadImage image, .loaded⟩
    else .error .loadOutOfOrder
  | .setKeys k => .ok ⟨c.core.setKeys k, c.phase⟩
  | .step r =>
    match step (c.core.supplyRnd r) with
    | .next t => .ok ⟨t, .running⟩
    | .fault f => .ok ⟨c.core.afterFault any f, .running⟩
    | .refused _ => .error .noStep
  | .inspect => .ok c

/-- The session after `Reset` of a machine with the given parameters (R172). -/
def Session.start (p : Config.Params) : Session := ⟨State.resetWith p, .constructed⟩

end Sys2Proof.Machine
end

