-- ==== Sys2Proof/Machine/Signals.lean ====
section
/-! DEFINITION. The signal-level form of the host interface (R36): what a rising edge of `clk` does. It is the spec's own
suggestion and no rule depends on it (D1). -/

namespace Sys2Proof.Machine

/-- The input signals, as sampled on a rising edge (R36). -/
structure Pins where
  rst    : Bool
  step   : Bool
  rnd    : Byte
  keysWe : Bool
  keys   : BitVec 16
  ldEn   : Bool
  ldAddr : BitVec 12
  ldData : Byte
deriving DecidableEq, Repr

/-- No request on any input. -/
def Pins.idle : Pins := ⟨false, false, 0#8, false, 0#16, false, 0#12, 0#8⟩

/-- A request for one step with a random byte. -/
def Pins.stepWith (r : Byte) : Pins := { Pins.idle with step := true, rnd := r }

/-- A request to write the key latch. -/
def Pins.writeKeys (k : BitVec 16) : Pins := { Pins.idle with keysWe := true, keys := k }

/-- A request to load one byte. -/
def Pins.loadByte (a : BitVec 12) (d : Byte) : Pins := { Pins.idle with ldEn := true, ldAddr := a, ldData := d }

/-- A request for `Reset`. -/
def Pins.reset : Pins := { Pins.idle with rst := true }

/-- A step the block has accepted: its random byte and how many more edges come before the one that changes the state. -/
structure Running where
  rnd   : Byte
  edges : Nat
deriving DecidableEq, Repr

/-- The block: the session, and the accepted step, if one is under way (log 23). -/
structure Block where
  session : Session
  running : Option Running
deriving DecidableEq, Repr

/-- Output `busy` (R36). -/
def Block.busy (b : Block) : Bool := b.running.isSome

/-- Output `faulted` (R36, R22). -/
def Block.faulted (b : Block) : Bool := b.session.core.fault.isSome

/-- Output `fb_rd_data` for the inputs `fb_rd_x` and `fb_rd_y` (R36). -/
def Block.fbRdData (b : Block) (x : BitVec 6) (y : BitVec 5) : Bool := b.session.core.pixel x.toFin y.toFin

/-- Input `insp_sel`: one name for each part of the Machine State that `fb_rd_data` does not show (R36, R10). Its width
and coding are the implementation's choice (log 23). -/
inductive InspSel where
  | reg (r : RegNum)
  | pc
  | idx
  | stack (j : Fin 16)
  | sp
  | dt
  | st
  | key (k : Fin 16)
  | mem (a : BitVec 12)
  | ir
  | fault
deriving DecidableEq, Repr

/-- Output `insp_data`: the value of the selected part (R35, R36). -/
inductive InspData where
  | bit (b : Bool)
  | byte (b : Byte)
  | word (w : Word)
  /-- `SP`, 0 to 16. -/
  | count (n : Fin 17)
  | fault (f : Option Fault)
deriving DecidableEq, Repr

/-- `Inspect` of one part of the state: its value, changing nothing (R35). -/
def State.inspect (s : State) : InspSel → InspData
  | .reg r => .byte (s.reg r)
  | .pc => .word s.pc
  | .idx => .word s.idx
  | .stack j => .word (s.stackAt j)
  | .sp => .count s.sp
  | .dt => .byte s.dt
  | .st => .byte s.st
  | .key k => .bit (s.key k.val)
  | .mem a => .byte (s.byteAt a.toNat)
  | .ir => .word s.ir
  | .fault => .fault s.fault

/-- Output `insp_data` for the input `insp_sel` (R36). -/
def Block.inspData (b : Block) (sel : InspSel) : InspData := b.session.core.inspect sel

/-- Why an edge has no meaning (log 23). -/
inductive SignalRefusal where
  /-- `rst` while a step is under way: a host action during a step (R30, R31). -/
  | resetDuringStep
  /-- Two accepted requests on one edge whose order matters and is not stated. -/
  | severalRequests
  /-- `ld_addr` below 0x200 (R36). -/
  | loadBelowProgram
  /-- The host operation the request stands for is refused. -/
  | host (r : HostRefusal)
deriving DecidableEq, Repr

/-- The requests a block that is not busy accepts: `ld_en` only before the first step (R36). -/
def Pins.accepted (p : Pins) (ph : Phase) : Pins := { p with ldEn := p.ldEn && ph != .running }

/-- Two accepted requests whose order matters. `SetKeys` and a byte of `Load` write different state, in either order. -/
def Pins.conflict (p : Pins) : Bool := (p.rst && p.step) || ((p.rst || p.step) && (p.keysWe || p.ldEn))

/-- The host operation of a request, as the whole effect of an edge. -/
def Block.host (b : Block) (any : State) (op : HostOp) : Except SignalRefusal Block :=
  match Session.apply any op b.session with
  | .ok c => .ok ⟨c, none⟩
  | .error r => .error (.host r)

/-- One byte of `Load`: `M[ld_addr] <- ld_data` (R36, R32). -/
def Block.loadOne (b : Block) (a : BitVec 12) (d : Byte) : Block :=
  ⟨⟨b.session.core.setMem (Memory.write b.session.core.params b.session.core.mem a.toNat d), .loaded⟩, none⟩

/-- `SetKeys` where `keys_we` is 1 (R36, R33). -/
def Block.acceptKeys (p : Pins) (b : Block) : Block :=
  if p.keysWe then ⟨⟨b.session.core.setKeys p.keys, b.session.phase⟩, none⟩ else b

/-- The byte of `Load` where `ld_en` is 1, at an address from 0x200 on (R36). -/
def Block.acceptLoad (p : Pins) (b : Block) : Except SignalRefusal Block :=
  if p.ldEn then
    if p.ldAddr.toNat < 0x200 then .error .loadBelowProgram else .ok (b.loadOne p.ldAddr p.ldData)
  else .ok b

/-- An accepted request for a step: it runs for `CYCLES_PER_STEP` edges. A faulted core has none (R34). -/
def Block.acceptStep (cycles : Nat) (any : State) (r : Byte) (b : Block) : Except SignalRefusal Block :=
  match cycles with
  | 0 => b.host any (.step r)
  | n + 1 => if b.faulted then .error (.host .noStep) else .ok { b with running := some ⟨r, n⟩ }

/-- What the accepted requests of an edge do in a block that is not busy. -/
def Block.serve (cycles : Nat) (any : State) (p : Pins) (b : Block) : Except SignalRefusal Block :=
  if p.conflict then .error .severalRequests
  else if p.rst then b.host any .reset
  else if p.step then b.acceptStep cycles any p.rnd
  else (b.acceptKeys p).acceptLoad p

/-- A rising edge of `clk` of a block that is not busy (R36). -/
def Block.edgeIdle (cycles : Nat) (any : State) (p : Pins) (b : Block) : Except SignalRefusal Block :=
  b.serve cycles any (p.accepted b.session.phase)

/-- A rising edge of `clk` (R36). `cycles` is `CYCLES_PER_STEP`, an OPEN argument (R5, D2): the number of edges after the
accepting one until the step's state change. While the block is busy no request is accepted. -/
def Block.edge (cycles : Nat) (any : State) (p : Pins) (b : Block) : Except SignalRefusal Block :=
  match b.running with
  | none => b.edgeIdle cycles any p
  | some q =>
    if p.rst then .error .resetDuringStep
    else
      match q.edges with
      | 0 => b.host any (.step q.rnd)
      | n + 1 => .ok { b with running := some ⟨q.rnd, n⟩ }

/-- Several edges, one set of inputs for each. -/
def Block.edges (cycles : Nat) (any : State) : List Pins → Block → Except SignalRefusal Block
  | [], b => .ok b
  | p :: ps, b =>
    match b.edge cycles any p with
    | .ok c => Block.edges cycles any ps c
    | .error r => .error r

end Sys2Proof.Machine
end

