-- ==== Sys2Proof/Safety.lean ====
section
/-! DEFINITION. The words the claims use: what a good state is, what an instruction may write, and when a part of the
state is the same before and after. -/

namespace Sys2Proof.Machine

/-- The invariant of a core that has not faulted: memory is in its canonical form (log 20), `pc` is at most 0x10FE
(R13, derived there), and no saved return address is above 0x1000 (R90). -/
def State.Inv (s : State) : Prop :=
  s.fault = none ∧ Memory.wf s.params s.mem = true ∧ s.pc.toNat ≤ 0x10FE ∧
    ∀ j : Fin 16, (s.stackAt j).toNat ≤ 0x1000

/-- Every byte of memory reads the same. -/
def SameMem (s t : State) : Prop := ∀ a : Nat, t.byteAt a = s.byteAt a

/-- Every cell of the framebuffer is the same. -/
def SameFb (s t : State) : Prop := ∀ (x : Fin 64) (y : Fin 32), t.pixel x y = s.pixel x y

/-- Every general register is the same. -/
def SameRegs (s t : State) : Prop := ∀ r : RegNum, t.reg r = s.reg r

/-- Every general register but `x` is the same. -/
def SameRegsBut (x : RegNum) (s t : State) : Prop := ∀ r : RegNum, r ≠ x → t.reg r = s.reg r

/-- The call stack, stale entries included, and its pointer are the same. -/
def SameStack (s t : State) : Prop := t.sp = s.sp ∧ ∀ j : Fin 16, t.stackAt j = s.stackAt j

/-- Both timers are the same. -/
def SameTimers (s t : State) : Prop := t.dt = s.dt ∧ t.st = s.st

/-- What no instruction's own effect changes: the key latch (R18), the fetched word (R21), the fault field (R22), the
parameters (R23) and the random input. -/
def SameRest (s t : State) : Prop :=
  t.keys = s.keys ∧ t.ir = s.ir ∧ t.fault = s.fault ∧ t.params = s.params ∧ t.rnd = s.rnd ∧ t.rndDraws = s.rndDraws

/-- Everything but the general registers, `pc` and `I` is the same. -/
def SameBeyondRegs (s t : State) : Prop :=
  SameStack s t ∧ SameTimers s t ∧ SameFb s t ∧ SameMem s t ∧ SameRest s t

/-- Everything but `pc` is the same: what a jump or a skip leaves. -/
def OnlyPcMayDiffer (s t : State) : Prop := SameRegs s t ∧ t.idx = s.idx ∧ SameBeyondRegs s t

/-- Everything but the register `x` is the same: what an instruction that writes one register leaves. -/
def OnlyRegMayDiffer (x : RegNum) (s t : State) : Prop :=
  SameRegsBut x s t ∧ t.pc = s.pc ∧ t.idx = s.idx ∧ SameBeyondRegs s t

/-- Everything but the register `x` and `VF` is the same: what an instruction with a flag output leaves. -/
def OnlyRegAndFlagMayDiffer (x : RegNum) (s t : State) : Prop :=
  (∀ r : RegNum, r ≠ x → r ≠ vf → t.reg r = s.reg r) ∧ t.pc = s.pc ∧ t.idx = s.idx ∧ SameBeyondRegs s t

/-- Everything but `I` is the same. -/
def OnlyIdxMayDiffer (s t : State) : Prop := SameRegs s t ∧ t.pc = s.pc ∧ SameBeyondRegs s t

/-- Everything but memory is the same. -/
def OnlyMemMayDiffer (s t : State) : Prop :=
  SameRegs s t ∧ t.pc = s.pc ∧ t.idx = s.idx ∧ SameStack s t ∧ SameTimers s t ∧ SameFb s t ∧ SameRest s t

/-- The core takes a step that fetches a word: it has not faulted and the fetch is inside memory (R45, R80). -/
def State.canFetch (s : State) : Prop := s.fault = none ∧ s.pc.toNat ≤ 0xFFE

/-- The bits of a word that take part in decoding or in the instruction it decodes to (R64): bits 11 to 4 of family 0,
bits 7 to 4 of family E and of the two shifts, and bits 3 to 0 under leading nibble 5 or 9 do not. -/
def examinedMask (w : Word) : Word :=
  match opField w with
  | 0x0#4 => 0xF00F
  | 0x5#4 => 0xFFF0
  | 0x8#4 => if subField w = 0x6#4 ∨ subField w = 0xE#4 then 0xFF0F else 0xFFFF
  | 0x9#4 => 0xFFF0
  | 0xE#4 => 0xFF0F
  | _ => 0xFFFF

/-- A sprite bit of 1 of `Dxyn` lands on cell `(px, py)` (R121): the cell is inside the 8 by `n` area whose top left
corner is `(V[x] mod 64, V[y] mod 32)`, and the bit of the sprite byte of that row and column is 1, bit 7 leftmost. -/
def State.spriteLands (s : State) (x y : RegNum) (n px py : Nat) : Bool :=
  decide ((s.reg x).toNat % 64 ≤ px) && decide (px < (s.reg x).toNat % 64 + 8) &&
    decide ((s.reg y).toNat % 32 ≤ py) && decide (py < (s.reg y).toNat % 32 + n) &&
      (s.byteAt (s.idx.toNat + (py - (s.reg y).toNat % 32))).getLsbD (7 - (px - (s.reg x).toNat % 64))

/-- The instruction's rule reads register `r` (R11, R63). -/
def readsReg (i : Instr) (r : RegNum) : Bool :=
  match i with
  | .seKk x _ | .sneKk x _ | .addKk x _ | .shr x _ | .shl x _ | .skp x _ | .sknp x _ => r == x
  | .ldReg _ y => r == y
  | .seReg x y _ | .sneReg x y _ | .orReg x y | .andReg x y | .xorReg x y | .addReg x y | .subReg x y | .subnReg x y
  | .drw x y _ => r == x || r == y
  | .jpV0 _ => r == 0
  | .ldDtVx x | .ldStVx x | .addI x | .ldF x | .ldB x => r == x
  | .ldMemVx x => decide (r ≤ x)
  | .cls _ | .ret _ | .jp _ | .call _ | .ldKk _ _ | .ldI _ | .rnd _ _ | .ldVxDt _ | .ldVxK _ | .ldVxMem _ => false

/-- The instruction's rule may write register `r` (R11, R12). -/
def writesReg (i : Instr) (r : RegNum) : Bool :=
  match i with
  | .ldKk x _ | .addKk x _ | .ldReg x _ | .orReg x _ | .andReg x _ | .xorReg x _ | .rnd x _ | .ldVxDt x | .ldVxK x =>
    r == x
  | .addReg x _ | .subReg x _ | .shr x _ | .subnReg x _ | .shl x _ => r == x || r == vf
  | .drw _ _ _ => r == vf
  | .ldVxMem x => decide (r ≤ x)
  | .cls _ | .ret _ | .jp _ | .call _ | .seKk _ _ | .sneKk _ _ | .seReg _ _ _ | .sneReg _ _ _ | .ldI _ | .jpV0 _
  | .skp _ _ | .sknp _ _ | .ldDtVx _ | .ldStVx _ | .addI _ | .ldF _ | .ldB _ | .ldMemVx _ => false

/-- The same outcome but for one change to the next state. -/
def mapNext (f : State → State) : Result → Result
  | .next t => .next (f t)
  | .fault e => .fault e
  | .refused e => .refused e

/-- How far an instruction reaches through `I` (R46): the number of bytes it reads or writes there. -/
def indexedLength : Instr → Nat
  | .drw _ _ n => n.val
  | .ldB _ => 3
  | .ldMemVx x => x.val + 1
  | .ldVxMem x => x.val + 1
  | _ => 0

end Sys2Proof.Machine
end

