-- ==== Sys2Proof/Certificates/Slice0/Obligations.lean ====
section
/-! DEFINITION. The statements about the model, for the provers. Each docstring names the rule or the section of the spec
it formalises; where it rests on a decision of the spec or of this model, it names the decision and the log entry. In a
statement about `exec`, `pc` has already been advanced by 2 (R81). -/

open Sys2Proof Sys2Proof.Machine

/-! ## Encoding -/

/-- Words written out from the opcode map decode to the instructions they stand for (spec/30 sections 1 to 3).
PRESUMED numbering (D3, D4, log 1). -/
def Obligations.SpecWordsDecode : Prop :=
  decodeWord 0x00E0#16 = some (.cls 0x0E#8) ∧ decodeWord 0x00EE#16 = some (.ret 0x0E#8) ∧
  decodeWord 0x1208#16 = some (.jp 0x208#12) ∧ decodeWord 0x3A07#16 = some (.seKk 0xA 0x07#8) ∧
  decodeWord 0x8014#16 = some (.addReg 0 1) ∧ decodeWord 0x8106#16 = some (.shr 1 0) ∧
  decodeWord 0xC30F#16 = some (.rnd 3 0x0F#8) ∧ decodeWord 0xD015#16 = some (.drw 0 1 5) ∧
  decodeWord 0xE39E#16 = some (.skp 3 0x9#4) ∧ decodeWord 0xF10A#16 = some (.ldVxK 1) ∧
  decodeWord 0xF033#16 = some (.ldB 0) ∧ decodeWord 0xF265#16 = some (.ldVxMem 2)

/-- Decoding the word, or the bytes, of any instruction gives it back with every operand at every value (spec/30
sections 1 to 3). -/
def Obligations.DecodeOfEncodeIsIdentity : Prop :=
  (∀ i : Instr, decodeWord (encode i) = some i) ∧
  ∀ (i : Instr) (rest : List Byte), decode (encodeBytes i ++ rest) = .ok (i, rest)

/-- A word has one meaning: the word of the instruction it decodes to is that word (spec/30 sections 1 to 3). -/
def Obligations.EncodeOfDecodeIsIdentity : Prop :=
  ∀ (w : Word) (i : Instr), decodeWord w = some i → encode i = w

/-- The two-level dispatch and the rows of the opcode map compute the same function, and no word matches two rows
(spec/30 section 2). PRESUMED numbering (D3, log 1). -/
def Obligations.DispatchAgreesWithOpcodeMap : Prop :=
  (∀ (w : Word) (i : Instr), decodeWord w = some i → ∃ r, opcodeRows[i.rowIndex]? = some r ∧ r.hits w = true) ∧
  (∀ (w : Word) (k : Nat) (r : OpcodeRow), opcodeRows[k]? = some r → r.hits w = true →
    ∃ i, decodeWord w = some i ∧ i.rowIndex = k) ∧
  (∀ (w : Word) (j k : Nat) (q r : OpcodeRow), opcodeRows[j]? = some q → opcodeRows[k]? = some r →
    q.hits w = true → r.hits w = true → j = k)

/-- How many words of each leading nibble are mapped, and how many of all (spec/30 section 3, derived there; numbering
D3, masks D5, log 1 and 2). -/
def Obligations.MappedWordCounts : Prop :=
  (∀ op ∈ [1, 2, 3, 4, 5, 6, 7, 9, 10, 11, 12, 13],
    ((List.range 4096).filter fun n => (decodeWord (BitVec.ofNat 16 (op * 4096 + n))).isSome).length = 4096) ∧
  ((List.range 4096).filter fun n => (decodeWord (BitVec.ofNat 16 n)).isSome).length = 512 ∧
  ((List.range 4096).filter fun n => (decodeWord (BitVec.ofNat 16 (8 * 4096 + n))).isSome).length = 2304 ∧
  ((List.range 4096).filter fun n => (decodeWord (BitVec.ofNat 16 (14 * 4096 + n))).isSome).length = 512 ∧
  ((List.range 4096).filter fun n => (decodeWord (BitVec.ofNat 16 (15 * 4096 + n))).isSome).length = 144

/-- Bits the dispatch does not examine change nothing: two words that agree on the examined bits run alike in every
state, and so does the canonical form of an instruction (R64; decision D5, log 2). -/
def Obligations.IgnoredBitsChangeNothing : Prop :=
  (∀ (w w' : Word) (s : State), w &&& examinedMask w = w' &&& examinedMask w' → runWord w s = runWord w' s) ∧
  (∀ (i : Instr) (s : State), exec i.canonical s = exec i s) ∧
  ∀ i : Instr, i.canonical.wellFormed = true

/-! ## The step -/

/-- The step (R80): a faulted core has none; a fetch above 0xFFE faults; the bytes at `pc` that decode to an instruction
run it, with `ir` and the advanced `pc`, and the timers tick after it; an unmapped word does nothing in between. The model's
own: that a step uses up the random byte supplied to it, `rnd` and `rndDraws` (log 4, DESIGN CHOICE), and that the step a
faulted core does not have is a refusal (log 7, DESIGN CHOICE). -/
def Obligations.StepRunsDecodedInstruction : Prop :=
  ∀ s : State,
    (∀ f, s.fault = some f → step s = .refused (.coreFaulted f)) ∧
    (s.fault = none → 0xFFE < s.pc.toNat → step s = .fault (.fetchOutOfBounds s.pc)) ∧
    (∀ i : Instr, s.canFetch →
      decode [s.byteAt s.pc.toNat, s.byteAt (s.pc.toNat + 1)] = .ok (i, []) →
      step s =
        match exec i { s with ir := wordOfBytes (s.byteAt s.pc.toNat) (s.byteAt (s.pc.toNat + 1)), pc := s.pc + 2#16 } with
        | .next u => .next { u with
            dt := if u.dt = 0#8 then 0#8 else u.dt - 1#8, st := if u.st = 0#8 then 0#8 else u.st - 1#8,
            rnd := none, rndDraws := u.rndDraws + 1 }
        | .fault f => .fault f
        | .refused r => .refused r) ∧
    (∀ w : Word, s.canFetch →
      decode [s.byteAt s.pc.toNat, s.byteAt (s.pc.toNat + 1)] = .error (.unmapped w) →
      step s = .next { s with
        ir := w, pc := s.pc + 2#16,
        dt := if s.dt = 0#8 then 0#8 else s.dt - 1#8, st := if s.st = 0#8 then 0#8 else s.st - 1#8,
        rnd := none, rndDraws := s.rndDraws + 1 })

/-- The unmapped words are exactly those listed, and a step that fetches one changes `pc`, the timers and the fetched
word, and nothing else of the machine (spec/30 section 4 and spec/40 section 2, R70 and R85, C5). Which words they are
rests on the opcode numbering (D3, log 1, PRESUMED) and on the ignored bits (D5, log 2, DEDUCED). -/
def Obligations.UnmappedWordsAreNoOps : Prop :=
  (∀ w : Word, decodeWord w = none ↔
    (opField w = 0x0#4 ∧
      subField w ∈ [0x1#4, 0x2#4, 0x3#4, 0x4#4, 0x5#4, 0x6#4, 0x7#4, 0x8#4, 0x9#4, 0xA#4, 0xB#4, 0xC#4, 0xD#4, 0xF#4]) ∨
    (opField w = 0x8#4 ∧ subField w ∈ [0x8#4, 0x9#4, 0xA#4, 0xB#4, 0xC#4, 0xD#4, 0xF#4]) ∨
    (opField w = 0xE#4 ∧
      subField w ∈ [0x0#4, 0x2#4, 0x3#4, 0x4#4, 0x5#4, 0x6#4, 0x7#4, 0x8#4, 0x9#4, 0xA#4, 0xB#4, 0xC#4, 0xD#4, 0xF#4]) ∨
    (opField w = 0xF#4 ∧
      kkField w ∉ [0x07#8, 0x0A#8, 0x15#8, 0x18#8, 0x1E#8, 0x29#8, 0x33#8, 0x55#8, 0x65#8])) ∧
  ∀ s : State, s.canFetch → decodeWord s.fetchWord = none →
    ∃ t, step s = .next t ∧ t.pc.toNat = s.pc.toNat + 2 ∧ t.dt.toNat = s.dt.toNat - 1 ∧
      t.st.toNat = s.st.toNat - 1 ∧ t.ir = s.fetchWord ∧ SameRegs s t ∧ t.idx = s.idx ∧ SameStack s t ∧
      SameFb s t ∧ SameMem s t ∧ t.keys = s.keys ∧ t.fault = none ∧ t.params = s.params

/-- The timer tick is the last phase of every step that did not fault, sees what the handler left, and happens once
whatever ran (R84); with the consequences the rule draws for the timer instructions, the wait for a key and an
unmapped word. -/
def Obligations.TimersTickOncePerStep : Prop :=
  (∀ s u : State, s.canFetch → runWord s.fetchWord s.fetched = .next u →
    ∃ t, step s = .next t ∧ t.dt.toNat = u.dt.toNat - 1 ∧ t.st.toNat = u.st.toNat - 1 ∧
      SameRegs u t ∧ t.pc = u.pc ∧ t.idx = u.idx ∧ SameStack u t ∧ SameFb u t ∧ SameMem u t ∧
      t.keys = u.keys ∧ t.ir = u.ir ∧ t.fault = u.fault ∧ t.params = u.params) ∧
  (∀ (s : State) (x : RegNum), s.canFetch → decodeWord s.fetchWord = some (.ldDtVx x) →
    ∃ t, step s = .next t ∧ t.dt.toNat = (s.reg x).toNat - 1 ∧ t.st.toNat = s.st.toNat - 1) ∧
  (∀ (s : State) (x : RegNum), s.canFetch → decodeWord s.fetchWord = some (.ldStVx x) →
    ∃ t, step s = .next t ∧ t.st.toNat = (s.reg x).toNat - 1 ∧ t.dt.toNat = s.dt.toNat - 1) ∧
  (∀ (s : State) (x : RegNum), s.canFetch → decodeWord s.fetchWord = some (.ldVxDt x) →
    ∃ t, step s = .next t ∧ t.reg x = s.dt ∧ t.dt.toNat = s.dt.toNat - 1 ∧ t.st.toNat = s.st.toNat - 1) ∧
  (∀ (s : State) (x : RegNum), s.canFetch → decodeWord s.fetchWord = some (.ldVxK x) → (∀ k < 16, s.key k = false) →
    ∃ t, step s = .next t ∧ t.dt.toNat = s.dt.toNat - 1 ∧ t.st.toNat = s.st.toNat - 1) ∧
  (∀ s : State, s.canFetch → decodeWord s.fetchWord = none →
    ∃ t, step s = .next t ∧ t.dt.toNat = s.dt.toNat - 1 ∧ t.st.toNat = s.st.toNat - 1)

/-- The four model faults and no other: what a step of a core that has not faulted answers is a next state or one of
them, each exactly where its condition holds, the fetch fault first; and their codes (spec/60 section 2; decisions D9,
D10, D24, D25 of the spec, log 6 and 8). -/
def Obligations.StepFaultsExactlyWhereListed : Prop :=
  (∀ (s : State) (f : Fault), s.fault = none → (step s = .fault f ↔
    (0xFFE < s.pc.toNat ∧ f = .fetchOutOfBounds s.pc) ∨
    (s.pc.toNat ≤ 0xFFE ∧
      ((f = .stackOverflow ∧ s.sp.val = 16 ∧ ∃ nnn, decodeWord s.fetchWord = some (.call nnn)) ∨
        (f = .stackUnderflow ∧ s.sp.val = 0 ∧ ∃ ign, decodeWord s.fetchWord = some (.ret ign)) ∨
        (f = .indexOutOfBounds (max s.idx.toNat 4096) ∧ ∃ i, decodeWord s.fetchWord = some i ∧
          0 < indexedLength i ∧ 4095 < s.idx.toNat + indexedLength i - 1))))) ∧
  (∀ (s : State) (r : Refusal), s.fault = none → step s ≠ .refused r) ∧
  (∀ w : Word, (Fault.fetchOutOfBounds w).code = 1) ∧ Fault.stackOverflow.code = 2 ∧
  Fault.stackUnderflow.code = 3 ∧ ∀ a : Nat, (Fault.indexOutOfBounds a).code = 4

/-- Every step keeps the invariant (spec/10 section 11 and spec/10 section 3: `pc` at most 0x10FE is derived there; the
canonical form of memory is the model's own, log 20). -/
def Obligations.StepKeepsInvariant : Prop :=
  ∀ s t : State, s.Inv → step s = .next t → t.Inv

/-- The state after `Reset` meets the invariant, whatever the parameters (log 3). -/
def Obligations.ResetMeetsInvariant : Prop :=
  ∀ p : Config.Params, (State.resetWith p).Inv

/-- Every host operation keeps the invariant of a core that has not faulted, so it holds through any session, with any
image, any keys, any random bytes, and after a `Reset` that follows a fault (spec/10 section 11; D9, D20, log 7
and 16). -/
def Obligations.HostOperationsKeepInvariant : Prop :=
  ∀ (any : State) (op : HostOp) (c c' : Session), (c.core.fault = none → c.core.Inv) →
    Session.apply any op c = .ok c' → c'.core.fault = none → c'.core.Inv

/-! ## Reset and the host -/

/-- What `Reset` leaves, for any parameters (spec/70 section 1). The zeros of `I`, `FB`, `K` and `ir` are the spec's
decision D15 (log 13); the font's address and bytes are parameters (D6, D7, log 3). -/
def Obligations.ResetValues : Prop :=
  ∀ p : Config.Params, let s := State.resetWith p
    (∀ r : RegNum, s.reg r = 0#8) ∧ s.pc = 0x0200#16 ∧ s.idx = 0x0000#16 ∧ (∀ j : Fin 16, s.stackAt j = 0#16) ∧
    s.sp.val = 0 ∧ s.dt = 0#8 ∧ s.st = 0#8 ∧ (∀ k < 16, s.key k = false) ∧
    (∀ (x : Fin 64) (y : Fin 32), s.pixel x y = false) ∧ s.ir = 0#16 ∧ s.fault = none ∧
    (∀ j : Fin 80, s.byteAt (p.fontBase.val + j.val) = p.font[j]) ∧
    (∀ a : Nat, a < p.fontBase.val ∨ p.fontBase.val + 80 ≤ a → s.byteAt a = 0#8)

/-- `Reset` is applied at any time, puts every part of the state into its reset value and clears the fault (spec/10
section 11; reset values D15, log 13; the parameters are the session's own, log 3). -/
def Obligations.ResetStartsASession : Prop :=
  ∀ (any : State) (c : Session), ∃ c', Session.apply any .reset c = .ok c' ∧ c'.phase = .constructed ∧
    c'.core.fault = none ∧ c'.core = { State.resetWith c.core.params with rndDraws := c.core.rndDraws }

/-- `Load` copies the image to 0x200 and changes nothing else; a longer image and a `Load` out of order are refused
(spec/10 section 11; the order is decision D20, log 16). -/
def Obligations.LoadCopiesTheImage : Prop :=
  ∀ (any : State) (image : List Byte) (c : Session),
    (3584 < image.length → Session.apply any (.load image) c = .error .imageTooLong) ∧
    (image.length ≤ 3584 → c.phase ≠ .constructed → Session.apply any (.load image) c = .error .loadOutOfOrder) ∧
    (image.length ≤ 3584 → c.phase = .constructed → Memory.wf c.core.params c.core.mem = true →
      ∃ c', Session.apply any (.load image) c = .ok c' ∧ c'.phase = .loaded ∧
        (∀ (j : Nat) (h : j < image.length), c'.core.byteAt (0x200 + j) = image[j]) ∧
        (∀ a : Nat, a < 0x200 ∨ 0x200 + image.length ≤ a → c'.core.byteAt a = c.core.byteAt a) ∧
        OnlyMemMayDiffer c.core c'.core)

/-- `SetKeys` writes all sixteen bits of the key latch and nothing else, between any two steps (spec/10 section 11, R33).
That it is allowed on a faulted core too is the model's choice (log 7, DESIGN CHOICE). -/
def Obligations.SetKeysWritesTheLatch : Prop :=
  ∀ (any : State) (k : BitVec 16) (c : Session), ∃ c', Session.apply any (.setKeys k) c = .ok c' ∧
    (∀ j < 16, c'.core.key j = k.getLsbD j) ∧ c'.phase = c.phase ∧ c'.core = { c.core with keys := k }

/-- `Step(rnd)` is one step with that random byte, and `Inspect` changes nothing; a step that faults sets `fault`, a
faulted core has no step, and only `Reset` clears the fault (spec/10 sections 10 and 11; decisions D1, D9, D16, D27,
log 4, 7 and 16). -/
def Obligations.OnlyResetLeavesAFault : Prop :=
  (∀ (any : State) (r : Byte) (c : Session) (t : State), step { c.core with rnd := some r } = .next t →
    Session.apply any (.step r) c = .ok ⟨t, .running⟩) ∧
  (∀ (any : State) (r : Byte) (c : Session) (f : Fault), step { c.core with rnd := some r } = .fault f →
    ∃ c', Session.apply any (.step r) c = .ok c' ∧ c'.core.fault = some f) ∧
  (∀ (any : State) (r : Byte) (c : Session), c.core.fault ≠ none →
    Session.apply any (.step r) c = .error .noStep) ∧
  (∀ (any : State) (c : Session), Session.apply any .inspect c = .ok c) ∧
  (∀ (any : State) (op : HostOp) (c c' : Session), Session.apply any op c = .ok c' →
    c.core.fault ≠ none → c'.core.fault = none → op = .reset)

/-- A step requested on the signals is the host's `Step` with that byte: no state change and `busy` until the edge that
is `CYCLES_PER_STEP` after the accepting one, whatever requests come meanwhile, and on that edge all of it (the suggested
interface of spec/10 section 11, R36; log 23). -/
def Obligations.SignalStepIsAHostStep : Prop :=
  ∀ (cycles : Nat) (any : State) (b : Block) (r : Byte) (ps : List Pins), b.running = none → b.faulted = false →
    ps.length = cycles → (∀ p ∈ ps, p.rst = false) →
    (∀ n < cycles, ∃ d, Block.edges cycles any (Pins.stepWith r :: ps.take n) b = .ok d ∧ d.busy = true ∧
      d.session = b.session) ∧
    Block.edges cycles any (Pins.stepWith r :: ps) b =
      match Session.apply any (.step r) b.session with
      | .ok c => .ok ⟨c, none⟩
      | .error e => .error (.host e)

/-- Loading an image byte by byte on the signals leaves the core that `Load` of that image leaves; the other requests are
the host operations they stand for; keys and a byte on one edge are the two requests in either order; and after the first
step `ld_en` is not accepted, so that every other request on its edge stands alone (the suggested interface of spec/10
section 11, R36; log 23). -/
def Obligations.SignalRequestsAreHostOperations : Prop :=
  (∀ (cycles : Nat) (any : State) (b : Block) (image : List Byte), b.running = none →
    b.session.phase = .constructed → image.length ≤ 3584 →
    ∃ c d, Session.apply any (.load image) b.session = .ok c ∧
      Block.edges cycles any (image.mapIdx fun j v => Pins.loadByte (BitVec.ofNat 12 (0x200 + j)) v) b = .ok d ∧
      d.session.core = c.core ∧ d.busy = false) ∧
  (∀ (cycles : Nat) (any : State) (b : Block) (k : BitVec 16), b.running = none →
    ∃ c, Session.apply any (.setKeys k) b.session = .ok c ∧
      b.edge cycles any (Pins.writeKeys k) = .ok ⟨c, none⟩) ∧
  (∀ (cycles : Nat) (any : State) (b : Block), b.running = none →
    ∃ c, Session.apply any .reset b.session = .ok c ∧ b.edge cycles any Pins.reset = .ok ⟨c, none⟩) ∧
  (∀ (cycles : Nat) (any : State) (b : Block) (k : BitVec 16) (a : BitVec 12) (v : Byte), b.running = none →
    b.session.phase ≠ .running →
    b.edge cycles any { Pins.loadByte a v with keysWe := true, keys := k } =
      Block.edges cycles any [Pins.writeKeys k, Pins.loadByte a v] b ∧
    b.edge cycles any { Pins.loadByte a v with keysWe := true, keys := k } =
      Block.edges cycles any [Pins.loadByte a v, Pins.writeKeys k] b) ∧
  (∀ (cycles : Nat) (any : State) (b : Block) (a : BitVec 12) (v : Byte), b.running = none →
    b.session.phase = .running → b.edge cycles any (Pins.loadByte a v) = .ok b) ∧
  (∀ (cycles : Nat) (any : State) (b : Block) (p : Pins), b.running = none → b.session.phase = .running →
    b.edge cycles any p = b.edge cycles any { p with ldEn := false })

/-! ## Whole-machine rules -/

/-- Who writes what, over all instructions: each part of the state is left as it was by every instruction that the
rules do not name for it (spec/10 sections 2 to 10). -/
def Obligations.OnlyNamedInstructionsWrite : Prop :=
  ∀ (i : Instr) (s t : State), exec i s = .next t →
    SameRest s t ∧
    (∀ r : RegNum, writesReg i r = false → t.reg r = s.reg r) ∧
    ((∀ ign, i ≠ .ret ign) → (∀ nnn, i ≠ .call nnn) → SameStack s t) ∧
    ((∀ ign, i ≠ .cls ign) → (∀ x y n, i ≠ .drw x y n) → SameFb s t) ∧
    ((∀ x, i ≠ .ldB x) → (∀ x, i ≠ .ldMemVx x) → SameMem s t) ∧
    ((∀ nnn, i ≠ .ldI nnn) → (∀ x, i ≠ .addI x) → (∀ x, i ≠ .ldF x) → t.idx = s.idx) ∧
    ((∀ x, i ≠ .ldDtVx x) → t.dt = s.dt) ∧
    ((∀ x, i ≠ .ldStVx x) → t.st = s.st) ∧
    ((∀ a, i ≠ .ret a) → (∀ a, i ≠ .jp a) → (∀ a, i ≠ .call a) → (∀ a, i ≠ .jpV0 a) → (∀ x a, i ≠ .seKk x a) →
      (∀ x a, i ≠ .sneKk x a) → (∀ x y a, i ≠ .seReg x y a) → (∀ x y a, i ≠ .sneReg x y a) → (∀ x a, i ≠ .skp x a) →
      (∀ x a, i ≠ .sknp x a) → (∀ x, i ≠ .ldVxK x) → t.pc = s.pc)

/-- What the six flag instructions leave in `VF`, and that every other instruction leaves it alone unless it is the named
destination (spec/10 section 2). With `VF` as destination the result stays (R8; D12 for the forms other than ADD,
log 10). -/
def Obligations.FlagRegisterHoldsTheFlag : Prop :=
  (∀ (s t : State) (x y : RegNum), x ≠ vf →
    (exec (.addReg x y) s = .next t → t.reg vf = if (s.reg x).toNat + (s.reg y).toNat > 255 then 1#8 else 0#8) ∧
    (exec (.subReg x y) s = .next t → t.reg vf = if (s.reg x).toNat ≥ (s.reg y).toNat then 1#8 else 0#8) ∧
    (exec (.subnReg x y) s = .next t → t.reg vf = if (s.reg y).toNat ≥ (s.reg x).toNat then 1#8 else 0#8) ∧
    (exec (.shr x y) s = .next t → t.reg vf = if (s.reg x).getLsbD 0 then 1#8 else 0#8) ∧
    (exec (.shl x y) s = .next t → t.reg vf = if (s.reg x).getLsbD 7 then 1#8 else 0#8)) ∧
  (∀ (s t : State) (y : RegNum),
    (exec (.addReg vf y) s = .next t → (t.reg vf).toNat = ((s.reg vf).toNat + (s.reg y).toNat) % 256) ∧
    (exec (.subReg vf y) s = .next t → (t.reg vf).toNat = (256 + (s.reg vf).toNat - (s.reg y).toNat) % 256) ∧
    (exec (.subnReg vf y) s = .next t → (t.reg vf).toNat = (256 + (s.reg y).toNat - (s.reg vf).toNat) % 256) ∧
    (exec (.shr vf y) s = .next t → (t.reg vf).toNat = (s.reg vf).toNat / 2) ∧
    (exec (.shl vf y) s = .next t → (t.reg vf).toNat = (s.reg vf).toNat * 2 % 256)) ∧
  (∀ (s t : State) (x y : RegNum) (n : Fin 16), exec (.drw x y n) s = .next t → t.reg vf = 0#8 ∨ t.reg vf = 1#8) ∧
  (∀ (i : Instr) (s t : State), writesReg i vf = false → exec i s = .next t → t.reg vf = s.reg vf)

/-- A register that an instruction's rule does not read cannot influence anything the instruction does to the rest of
the machine; in particular no instruction reads `VF` as an implicit flag (spec/10 section 2). -/
def Obligations.UnreadRegisterHasNoInfluence : Prop :=
  ∀ (i : Instr) (s : State) (r : RegNum) (b : Byte), readsReg i r = false →
    match exec i s, exec i (s.setReg r b) with
    | .next t, .next u => SameRegsBut r t u ∧ u.pc = t.pc ∧ u.idx = t.idx ∧ SameBeyondRegs t u
    | .fault e, .fault e' => e = e'
    | .refused e, .refused e' => e = e'
    | _, _ => False

/-- The random byte is used only by `Cxkk`: every other instruction does the same whatever was supplied (spec/10 section
11; decision D16, log 4). -/
def Obligations.OnlyRandomReadsTheRandomByte : Prop :=
  ∀ (i : Instr) (s : State) (r : Option Byte) (n : Nat), (∀ x kk, i ≠ .rnd x kk) →
    exec i { s with rnd := r, rndDraws := n } = mapNext (fun t => { t with rnd := r, rndDraws := n }) (exec i s)

/-- No instruction reads the sound timer: it decides nothing but its own value (spec/10 section 6; decision D17,
log 19). -/
def Obligations.SoundTimerDecidesNothing : Prop :=
  ∀ (i : Instr) (s : State) (b : Byte),
    ((∀ x, i ≠ .ldStVx x) → exec i { s with st := b } = mapNext (fun t => { t with st := b }) (exec i s)) ∧
    (∀ x, i = .ldStVx x → exec i { s with st := b } = exec i s)

/-- Jumps, the call, the return and the register skips make no memory access: they do the same whatever memory holds and
leave every byte as it was (R98). Register numbers cannot leave 0 to 15 by their type. -/
def Obligations.ControlFlowTouchesNoMemory : Prop :=
  ∀ (i : Instr) (s : State) (m : Memory),
    ((∃ a, i = .ret a) ∨ (∃ a, i = .jp a) ∨ (∃ a, i = .jpV0 a) ∨ (∃ a, i = .call a) ∨ (∃ x a, i = .seKk x a) ∨
      (∃ x a, i = .sneKk x a) ∨ (∃ x y a, i = .seReg x y a) ∨ (∃ x y a, i = .sneReg x y a)) →
    exec i { s with mem := m } = mapNext (fun t => { t with mem := m }) (exec i s) ∧
      ∀ t, exec i s = .next t → SameRegs s t ∧ SameMem s t

/-! ## Control flow -/

/-- RET pops the return address into `pc`, and with the stack empty it is `StackUnderflow` (spec/41, R90). What a CALL pushed is at
most 0x1000, by the invariant. The popped entry keeps its value (D14, log 12). -/
def Obligations.ReturnPopsTheStack : Prop :=
  ∀ (s : State) (ign : BitVec 8),
    (s.sp.val = 0 → exec (.ret ign) s = .fault .stackUnderflow) ∧
    (∀ j : Fin 16, s.sp.val = j.val + 1 → ∃ t, exec (.ret ign) s = .next t ∧ t.sp.val = j.val ∧
      t.pc = s.stackAt j ∧ (s.Inv → t.pc.toNat ≤ 0x1000) ∧ (∀ k : Fin 16, t.stackAt k = s.stackAt k) ∧
      SameRegs s t ∧ t.idx = s.idx ∧
      SameTimers s t ∧ SameFb s t ∧ SameMem s t ∧ SameRest s t)

/-- CALL pushes the advanced `pc` and jumps, and with 16 entries saved it is `StackOverflow` (R93). -/
def Obligations.CallPushesTheReturnAddress : Prop :=
  ∀ (s : State) (nnn : BitVec 12),
    (s.sp.val = 16 → exec (.call nnn) s = .fault .stackOverflow) ∧
    (∀ j : Fin 16, s.sp.val = j.val → ∃ t, exec (.call nnn) s = .next t ∧ t.sp.val = j.val + 1 ∧
      t.stackAt j = s.pc ∧ (∀ k : Fin 16, k ≠ j → t.stackAt k = s.stackAt k) ∧ t.pc.toNat = nnn.toNat ∧
      SameRegs s t ∧ t.idx = s.idx ∧ SameTimers s t ∧ SameFb s t ∧ SameMem s t ∧ SameRest s t)

/-- A RET that finds the stack as a CALL left it resumes after the call, with the stack as deep as before (spec/41
R90 and R93; stack convention D14, log 12). -/
def Obligations.ReturnResumesAfterCall : Prop :=
  ∀ (s t u : State) (nnn : BitVec 12) (ign : BitVec 8), exec (.call nnn) s = .next t →
    u.sp = t.sp → (∀ k : Fin 16, u.stackAt k = t.stackAt k) →
    ∃ w, exec (.ret ign) u = .next w ∧ w.pc = s.pc ∧ w.sp = s.sp

/-- The stack faults at the step: a seventeenth nested call and a return on an empty stack (spec/60 section 2, R152 and
R153). That every family-0 word with low nibble E is RET rests on the numbering (D3, log 1, PRESUMED) and on the ignored
bits (D5, log 2, DEDUCED). -/
def Obligations.StackFaultsAtTheStep : Prop :=
  (∀ (s : State) (nnn : BitVec 12), s.canFetch → s.sp.val = 16 → decodeWord s.fetchWord = some (.call nnn) →
    step s = .fault .stackOverflow) ∧
  (∀ s : State, s.canFetch → s.sp.val = 0 → opField s.fetchWord = 0x0#4 → subField s.fetchWord = 0xE#4 →
    step s = .fault .stackUnderflow)

/-- JP sets `pc` to the 12-bit address and changes nothing else; after a jump to 0xFFF the next fetch faults (R91). -/
def Obligations.JumpSetsPc : Prop :=
  ∀ (s : State) (nnn : BitVec 12), ∃ t, exec (.jp nnn) s = .next t ∧ t.pc.toNat = nnn.toNat ∧ OnlyPcMayDiffer s t ∧
    (nnn = 0xFFF#12 → s.fault = none → step t = .fault (.fetchOutOfBounds 0x0FFF#16))

/-- JP V0 sets `pc` to the address plus `V0`, not reduced to 12 bits (spec/41 R92: its upper bound is derived there). -/
def Obligations.JumpV0AddsTheRegister : Prop :=
  ∀ (s : State) (nnn : BitVec 12), ∃ t, exec (.jpV0 nnn) s = .next t ∧
    t.pc.toNat = nnn.toNat + (s.reg 0).toNat ∧ t.pc.toNat ≤ 0x10FE ∧ OnlyPcMayDiffer s t

/-- SE and SNE with a byte: `pc` goes a further 2 exactly when the comparison holds, 4 bytes net in the step (R94,
R95). -/
def Obligations.ImmediateSkips : Prop :=
  (∀ (s : State) (x : RegNum) (kk : Byte),
    (∃ t, exec (.seKk x kk) s = .next t ∧ t.pc = (if s.reg x = kk then s.pc + 2#16 else s.pc) ∧ OnlyPcMayDiffer s t) ∧
    (∃ t, exec (.sneKk x kk) s = .next t ∧ t.pc = (if s.reg x = kk then s.pc else s.pc + 2#16) ∧
      OnlyPcMayDiffer s t)) ∧
  (∀ (s : State) (x : RegNum) (kk : Byte), s.canFetch →
    (decodeWord s.fetchWord = some (.seKk x kk) →
      ∃ t, step s = .next t ∧ t.pc.toNat = s.pc.toNat + if s.reg x = kk then 4 else 2) ∧
    (decodeWord s.fetchWord = some (.sneKk x kk) →
      ∃ t, step s = .next t ∧ t.pc.toNat = s.pc.toNat + if s.reg x = kk then 2 else 4))

/-- SE and SNE with a register; `x = y` always or never skips (R96, R97). -/
def Obligations.RegisterSkips : Prop :=
  (∀ (s : State) (x y : RegNum) (ign : BitVec 4),
    (∃ t, exec (.seReg x y ign) s = .next t ∧ t.pc = (if s.reg x = s.reg y then s.pc + 2#16 else s.pc) ∧
      OnlyPcMayDiffer s t) ∧
    (∃ t, exec (.sneReg x y ign) s = .next t ∧ t.pc = (if s.reg x = s.reg y then s.pc else s.pc + 2#16) ∧
      OnlyPcMayDiffer s t)) ∧
  (∀ (s : State) (x y : RegNum) (ign : BitVec 4), s.canFetch →
    (decodeWord s.fetchWord = some (.seReg x y ign) →
      ∃ t, step s = .next t ∧ t.pc.toNat = s.pc.toNat + if x = y ∨ s.reg x = s.reg y then 4 else 2) ∧
    (decodeWord s.fetchWord = some (.sneReg x y ign) →
      ∃ t, step s = .next t ∧ t.pc.toNat = s.pc.toNat + if x = y ∨ s.reg x = s.reg y then 2 else 4))

/-! ## Registers and the ALU -/

/-- LD byte, ADD byte and LD register: the new value, no flag, and nothing else (R100, R101, R102). -/
def Obligations.LoadsAndAddImmediate : Prop :=
  ∀ (s : State) (x y : RegNum) (kk : Byte),
    (∃ t, exec (.ldKk x kk) s = .next t ∧ t.reg x = kk ∧ OnlyRegMayDiffer x s t) ∧
    (∃ t, exec (.addKk x kk) s = .next t ∧ (t.reg x).toNat = ((s.reg x).toNat + kk.toNat) % 256 ∧
      OnlyRegMayDiffer x s t) ∧
    (∃ t, exec (.ldReg x y) s = .next t ∧ t.reg x = s.reg y ∧ OnlyRegMayDiffer x s t)

/-- OR, AND and XOR, bit by bit, with no flag (R103, R104, R105). -/
def Obligations.LogicOperations : Prop :=
  ∀ (s : State) (x y : RegNum),
    (∃ t, exec (.orReg x y) s = .next t ∧
      (∀ k < 8, (t.reg x).getLsbD k = ((s.reg x).getLsbD k || (s.reg y).getLsbD k)) ∧ OnlyRegMayDiffer x s t) ∧
    (∃ t, exec (.andReg x y) s = .next t ∧
      (∀ k < 8, (t.reg x).getLsbD k = ((s.reg x).getLsbD k && (s.reg y).getLsbD k)) ∧ OnlyRegMayDiffer x s t) ∧
    (∃ t, exec (.xorReg x y) s = .next t ∧
      (∀ k < 8, (t.reg x).getLsbD k = ((s.reg x).getLsbD k ^^ (s.reg y).getLsbD k)) ∧ OnlyRegMayDiffer x s t)

/-- ADD: the low 8 bits of the sum in `V[x]`, the carry in `VF`; with `x = F` the sum is what stays (R106). -/
def Obligations.AddSetsCarry : Prop :=
  ∀ (s : State) (x y : RegNum), ∃ t, exec (.addReg x y) s = .next t ∧
    (t.reg x).toNat = ((s.reg x).toNat + (s.reg y).toNat) % 256 ∧
    (x ≠ vf → t.reg vf = if (s.reg x).toNat + (s.reg y).toNat > 255 then 1#8 else 0#8) ∧
    OnlyRegAndFlagMayDiffer x s t

/-- SUB and SUBN: the wrapped difference in `V[x]`, the not-borrow in `VF`; with `x = F` the difference is what stays
(spec/42 section 3; that write order is the spec's decision D12, log 10). -/
def Obligations.SubtractsSetNotBorrow : Prop :=
  ∀ (s : State) (x y : RegNum),
    (∃ t, exec (.subReg x y) s = .next t ∧
      ((s.reg y).toNat ≤ (s.reg x).toNat → (t.reg x).toNat = (s.reg x).toNat - (s.reg y).toNat) ∧
      ((s.reg x).toNat < (s.reg y).toNat → (t.reg x).toNat = 256 + (s.reg x).toNat - (s.reg y).toNat) ∧
      (x ≠ vf → t.reg vf = if (s.reg x).toNat ≥ (s.reg y).toNat then 1#8 else 0#8) ∧ OnlyRegAndFlagMayDiffer x s t) ∧
    (∃ t, exec (.subnReg x y) s = .next t ∧
      ((s.reg x).toNat ≤ (s.reg y).toNat → (t.reg x).toNat = (s.reg y).toNat - (s.reg x).toNat) ∧
      ((s.reg y).toNat < (s.reg x).toNat → (t.reg x).toNat = 256 + (s.reg y).toNat - (s.reg x).toNat) ∧
      (x ≠ vf → t.reg vf = if (s.reg y).toNat ≥ (s.reg x).toNat then 1#8 else 0#8) ∧ OnlyRegAndFlagMayDiffer x s t)

/-- SHR and SHL: one place in `V[x]`, filled with 0, the bit moved out in `VF`, `V[y]` neither read nor written; with
`x = F` the result is what stays (spec/42 section 3; decision D12 for that form, log 10). -/
def Obligations.ShiftsMoveOneBitOut : Prop :=
  ∀ (s : State) (x y : RegNum),
    (∃ t, exec (.shr x y) s = .next t ∧
      (∀ k < 7, (t.reg x).getLsbD k = (s.reg x).getLsbD (k + 1)) ∧ (t.reg x).getLsbD 7 = false ∧
      (x ≠ vf → t.reg vf = if (s.reg x).getLsbD 0 then 1#8 else 0#8) ∧ OnlyRegAndFlagMayDiffer x s t) ∧
    (∃ t, exec (.shl x y) s = .next t ∧
      (∀ k < 7, (t.reg x).getLsbD (k + 1) = (s.reg x).getLsbD k) ∧ (t.reg x).getLsbD 0 = false ∧
      (x ≠ vf → t.reg vf = if (s.reg x).getLsbD 7 then 1#8 else 0#8) ∧ OnlyRegAndFlagMayDiffer x s t)

/-- RND: the random byte of the step under the mask, whatever byte the host supplied, and with none supplied a byte no
law constrains; bits clear in the mask are clear in the result (spec/42 section 4; decision D16, log 4). -/
def Obligations.RandomUnderMask : Prop :=
  ∀ (s : State) (x : RegNum) (kk : Byte), ∃ t, exec (.rnd x kk) s = .next t ∧ OnlyRegMayDiffer x s t ∧
    (∀ r : Byte, s.rnd = some r → t.reg x = r &&& kk) ∧
    (∀ k < 8, kk.getLsbD k = false → (t.reg x).getLsbD k = false)

/-! ## Display -/

/-- CLS clears every cell and writes no flag (R120). -/
def Obligations.ClearScreenClearsEveryCell : Prop :=
  ∀ (s : State) (ign : BitVec 8), ∃ t, exec (.cls ign) s = .next t ∧
    (∀ (x : Fin 64) (y : Fin 32), t.pixel x y = false) ∧ SameRegs s t ∧ t.pc = s.pc ∧ t.idx = s.idx ∧
    SameStack s t ∧ SameTimers s t ∧ SameMem s t ∧ SameRest s t

/-- DRW toggles exactly the cells a sprite bit of 1 lands on, unclipped, and `VF` is 1 exactly when one of them was set;
with a byte out of memory it faults (spec/43: bit order and orientation D8, reads and write order D13, bounds D9, D10;
log 5, 8 and 11). -/
def Obligations.DrawTogglesAndReportsCollision : Prop :=
  ∀ (s : State) (x y : RegNum) (n : Fin 16),
    (n.val ≠ 0 → 4096 < s.idx.toNat + n.val →
      exec (.drw x y n) s = .fault (.indexOutOfBounds (max s.idx.toNat 4096))) ∧
    (n.val = 0 ∨ s.idx.toNat + n.val ≤ 4096 → ∃ t, exec (.drw x y n) s = .next t ∧
      (∀ (px : Fin 64) (py : Fin 32), t.pixel px py = (s.pixel px py ^^ s.spriteLands x y n.val px.val py.val)) ∧
      (t.reg vf = 1#8 ∨ t.reg vf = 0#8) ∧
      (t.reg vf = 1#8 ↔ ∃ (px : Fin 64) (py : Fin 32),
        s.pixel px py = true ∧ s.spriteLands x y n.val px.val py.val = true) ∧
      SameRegsBut vf s t ∧ t.pc = s.pc ∧ t.idx = s.idx ∧ SameStack s t ∧ SameTimers s t ∧ SameMem s t ∧ SameRest s t)

/-- Drawing is self-inverse: the same draw again, with the same coordinates, `I` and sprite bytes, restores the
framebuffer; it reports a collision exactly when a sprite bit of 1 lands, unclipped, on a cell that was clear before the
first draw, and so, on a frame that was clear there, exactly when the sprite has a bit of 1 in the unclipped area
(spec/43 R121 and R122, C3). DEDUCED: R122's own sentence leaves out that the cells were clear; R121 is followed
(log 22). -/
def Obligations.DrawTwiceRestores : Prop :=
  ∀ (s t u : State) (x y : RegNum) (n : Fin 16), exec (.drw x y n) s = .next t →
    u.fb = t.fb → u.reg x = s.reg x → u.reg y = s.reg y → u.idx = s.idx →
    (∀ k < n.val, u.byteAt (s.idx.toNat + k) = s.byteAt (s.idx.toNat + k)) →
    ∃ w, exec (.drw x y n) u = .next w ∧ SameFb s w ∧ (w.reg vf = 1#8 ∨ w.reg vf = 0#8) ∧
      (w.reg vf = 1#8 ↔ ∃ (px : Fin 64) (py : Fin 32),
        s.pixel px py = false ∧ s.spriteLands x y n.val px.val py.val = true) ∧
      ((∀ (px : Fin 64) (py : Fin 32), s.spriteLands x y n.val px.val py.val = true → s.pixel px py = false) →
        (w.reg vf = 1#8 ↔ ∃ (px : Fin 64) (py : Fin 32), s.spriteLands x y n.val px.val py.val = true))

/-! ## Keys and timers -/

/-- SKP and SKNP: a further 2 exactly when the key numbered by the register, modulo 16, is pressed or is not; 4 bytes net
in the step (R130, R131). -/
def Obligations.KeySkips : Prop :=
  (∀ (s : State) (x : RegNum) (ign : BitVec 4),
    (∃ t, exec (.skp x ign) s = .next t ∧
      t.pc = (if s.key ((s.reg x).toNat % 16) = true then s.pc + 2#16 else s.pc) ∧ OnlyPcMayDiffer s t) ∧
    (∃ t, exec (.sknp x ign) s = .next t ∧
      t.pc = (if s.key ((s.reg x).toNat % 16) = true then s.pc else s.pc + 2#16) ∧ OnlyPcMayDiffer s t)) ∧
  (∀ (s : State) (x : RegNum) (ign : BitVec 4), s.canFetch →
    (decodeWord s.fetchWord = some (.skp x ign) → ∃ t, step s = .next t ∧
      t.pc.toNat = s.pc.toNat + if s.key ((s.reg x).toNat % 16) = true then 4 else 2) ∧
    (decodeWord s.fetchWord = some (.sknp x ign) → ∃ t, step s = .next t ∧
      t.pc.toNat = s.pc.toNat + if s.key ((s.reg x).toNat % 16) = true then 2 else 4))

/-- LD Vx DT, LD DT Vx and LD ST Vx, and what is left of them after the tick of their own step (spec/44, R132, R134 and
R135; the value after the tick is derived in R134 from R84). -/
def Obligations.TimerInstructions : Prop :=
  (∀ (s : State) (x : RegNum),
    (∃ t, exec (.ldVxDt x) s = .next t ∧ t.reg x = s.dt ∧ OnlyRegMayDiffer x s t) ∧
    (∃ t, exec (.ldDtVx x) s = .next t ∧ t.dt = s.reg x ∧ t.st = s.st ∧ SameRegs s t ∧ t.pc = s.pc ∧
      t.idx = s.idx ∧ SameStack s t ∧ SameFb s t ∧ SameMem s t ∧ SameRest s t) ∧
    (∃ t, exec (.ldStVx x) s = .next t ∧ t.st = s.reg x ∧ t.dt = s.dt ∧ SameRegs s t ∧ t.pc = s.pc ∧
      t.idx = s.idx ∧ SameStack s t ∧ SameFb s t ∧ SameMem s t ∧ SameRest s t)) ∧
  (∀ (s : State) (x : RegNum), s.canFetch →
    (decodeWord s.fetchWord = some (.ldVxDt x) →
      ∃ t, step s = .next t ∧ t.reg x = s.dt ∧ t.dt.toNat = s.dt.toNat - 1) ∧
    (decodeWord s.fetchWord = some (.ldDtVx x) → ∃ t, step s = .next t ∧ t.dt.toNat = (s.reg x).toNat - 1) ∧
    (decodeWord s.fetchWord = some (.ldStVx x) → ∃ t, step s = .next t ∧ t.st.toNat = (s.reg x).toNat - 1))

/-- LD Vx K: the pressed key of the lowest number; with none pressed `pc` goes back to the instruction, and the step
changes nothing of the machine but the timers and the fetched word (spec/44 R133). -/
def Obligations.WaitForKey : Prop :=
  (∀ (s : State) (x : RegNum) (k : Nat), k < 16 → s.key k = true → (∀ j < k, s.key j = false) →
    ∃ t, exec (.ldVxK x) s = .next t ∧ (t.reg x).toNat = k ∧ OnlyRegMayDiffer x s t) ∧
  (∀ (s : State) (x : RegNum), (∀ k < 16, s.key k = false) →
    ∃ t, exec (.ldVxK x) s = .next t ∧ t.pc = s.pc - 2#16 ∧ OnlyPcMayDiffer s t) ∧
  (∀ (s : State) (x : RegNum), s.canFetch → decodeWord s.fetchWord = some (.ldVxK x) → (∀ k < 16, s.key k = false) →
    ∃ t, step s = .next t ∧ t.pc = s.pc ∧ SameRegs s t ∧ t.idx = s.idx ∧ SameStack s t ∧ SameFb s t ∧ SameMem s t ∧
      t.keys = s.keys ∧ t.dt.toNat = s.dt.toNat - 1 ∧ t.st.toNat = s.st.toNat - 1)

/-! ## The index register and memory -/

/-- LD I sets `I` to the 12-bit address and changes nothing else (R140). -/
def Obligations.SetIndex : Prop :=
  ∀ (s : State) (nnn : BitVec 12), ∃ t, exec (.ldI nnn) s = .next t ∧ t.idx.toNat = nnn.toNat ∧ OnlyIdxMayDiffer s t

/-- ADD I adds the register modulo 65536 with no flag, and LD F points at glyph `V[x]`, not masked (spec/45 R141 and
R142; decisions D11 and D23, log 9 and 15; `FONT_BASE` is a parameter, log 3). -/
def Obligations.AddIndexAndFontAddress : Prop :=
  ∀ (s : State) (x : RegNum),
    (∃ t, exec (.addI x) s = .next t ∧ t.idx.toNat = (s.idx.toNat + (s.reg x).toNat) % 65536 ∧ OnlyIdxMayDiffer s t) ∧
    (∃ t, exec (.ldF x) s = .next t ∧ t.idx.toNat = s.params.fontBase.val + 5 * (s.reg x).toNat ∧
      OnlyIdxMayDiffer s t)

/-- LD B stores the three decimal digits at `I`, `I + 1`, `I + 2` and changes no other byte; with `I` above 4093 it
faults (R143). -/
def Obligations.BcdStoresThreeDigits : Prop :=
  ∀ (s : State) (x : RegNum),
    (4093 < s.idx.toNat → exec (.ldB x) s = .fault (.indexOutOfBounds (max s.idx.toNat 4096))) ∧
    (s.idx.toNat ≤ 4093 → Memory.wf s.params s.mem = true → ∃ t, exec (.ldB x) s = .next t ∧
      (t.byteAt s.idx.toNat).toNat = (s.reg x).toNat / 100 ∧
      (t.byteAt (s.idx.toNat + 1)).toNat = (s.reg x).toNat / 10 % 10 ∧
      (t.byteAt (s.idx.toNat + 2)).toNat = (s.reg x).toNat % 10 ∧
      (∀ a : Nat, a < s.idx.toNat ∨ s.idx.toNat + 3 ≤ a → t.byteAt a = s.byteAt a) ∧ OnlyMemMayDiffer s t)

/-- LD [I] Vx stores `V[k]` at `I + k` for every `k` up to `x` and changes no other byte; past 4095 it faults
(R144). -/
def Obligations.StoreRegisters : Prop :=
  ∀ (s : State) (x : RegNum),
    (4095 < s.idx.toNat + x.val → exec (.ldMemVx x) s = .fault (.indexOutOfBounds (max s.idx.toNat 4096))) ∧
    (s.idx.toNat + x.val ≤ 4095 → Memory.wf s.params s.mem = true → ∃ t, exec (.ldMemVx x) s = .next t ∧
      (∀ k : RegNum, k ≤ x → t.byteAt (s.idx.toNat + k.val) = s.reg k) ∧
      (∀ a : Nat, a < s.idx.toNat ∨ s.idx.toNat + x.val + 1 ≤ a → t.byteAt a = s.byteAt a) ∧ OnlyMemMayDiffer s t)

/-- LD Vx [I] loads `V[k]` from `I + k` for every `k` up to `x` and changes nothing else; past 4095 it faults (R145). -/
def Obligations.LoadRegisters : Prop :=
  ∀ (s : State) (x : RegNum),
    (4095 < s.idx.toNat + x.val → exec (.ldVxMem x) s = .fault (.indexOutOfBounds (max s.idx.toNat 4096))) ∧
    (s.idx.toNat + x.val ≤ 4095 → ∃ t, exec (.ldVxMem x) s = .next t ∧
      (∀ k : RegNum, k ≤ x → t.reg k = s.byteAt (s.idx.toNat + k.val)) ∧
      (∀ k : RegNum, x < k → t.reg k = s.reg k) ∧ t.pc = s.pc ∧ t.idx = s.idx ∧ SameBeyondRegs s t)

/-- A store and a later load with `I` and the stored bytes unchanged give the stored registers back, whatever happened to
the registers in between (spec/45 R146, derived there). -/
def Obligations.StoreThenLoadRestores : Prop :=
  ∀ (s t u : State) (x : RegNum), Memory.wf s.params s.mem = true → exec (.ldMemVx x) s = .next t →
    u.idx = s.idx → (∀ k : RegNum, k ≤ x → u.byteAt (s.idx.toNat + k.val) = t.byteAt (s.idx.toNat + k.val)) →
    ∃ w, exec (.ldVxMem x) u = .next w ∧ (∀ k : RegNum, k ≤ x → w.reg k = s.reg k) ∧
      ∀ k : RegNum, x < k → w.reg k = u.reg k

/-- Which instructions run out of memory through `I` (R154), and that they record the lowest such address (the spec's
decision D25, log 8). -/
def Obligations.IndexFaultsExactlyOutOfRange : Prop :=
  ∀ (i : Instr) (s : State) (a : Nat), exec i s = .fault (.indexOutOfBounds a) ↔
    a = max s.idx.toNat 4096 ∧
      ((∃ x y n, i = .drw x y n ∧ 0 < n.val ∧ 4095 < s.idx.toNat + n.val - 1) ∨
        (∃ x, i = .ldB x ∧ 4095 < s.idx.toNat + 2) ∨
        (∃ x, i = .ldMemVx x ∧ 4095 < s.idx.toNat + x.val) ∨
        (∃ x, i = .ldVxMem x ∧ 4095 < s.idx.toNat + x.val))

/-- A stored word is what the next fetch there reads, high byte at the lower address: two registers stored at an address
that `pc` then holds make the fetched word (spec/20 sections 3 and 9). -/
def Obligations.StoredCodeIsFetched : Prop :=
  ∀ (s t : State) (x : RegNum), Memory.wf s.params s.mem = true → 1 ≤ x.val →
    exec (.ldMemVx x) s = .next t →
    (t.setPc s.idx).fetchWord.toNat = (s.reg 0).toNat * 256 + (s.reg 1).toNat ∧ s.idx.toNat ≤ 0xFFE

/-! ## Inspection -/

/-- The read ports reach every part of the Machine State (R10, R35, R36; the selector's names are the model's, log 23): two
blocks on which `insp_data` reads alike for every selector and `fb_rd_data` for every cell have the same machine state, and
`faulted` is what `insp_data` shows of the fault. -/
def Obligations.ReadPortsShowTheWholeState : Prop :=
  (∀ b c : Block, (∀ sel, c.inspData sel = b.inspData sel) → (∀ x y, c.fbRdData x y = b.fbRdData x y) →
    SameRegs b.session.core c.session.core ∧ c.session.core.pc = b.session.core.pc ∧
    c.session.core.idx = b.session.core.idx ∧ SameStack b.session.core c.session.core ∧
    SameTimers b.session.core c.session.core ∧ c.session.core.keys = b.session.core.keys ∧
    SameFb b.session.core c.session.core ∧
    (∀ a : Nat, a ≤ 4095 → c.session.core.byteAt a = b.session.core.byteAt a) ∧
    c.session.core.ir = b.session.core.ir ∧ c.session.core.fault = b.session.core.fault ∧ c.faulted = b.faulted) ∧
  ∀ (b : Block) (f : Option Fault), b.inspData .fault = .fault f → b.faulted = f.isSome
end

