-- ==== Sys2Proof/Laws/State.lean ====
section
/-! SUPPORT. What each update of the state does to each field and to each read: one lemma per field per update,
true by definition, so that no proof unfolds a record update. -/

namespace Sys2Proof.Machine

variable (s : State)

@[simp] theorem State.setReg_v (r : RegNum) (b : Byte) : (s.setReg r b).v = s.v.set r b := rfl
@[simp] theorem State.setReg_pc (r : RegNum) (b : Byte) : (s.setReg r b).pc = s.pc := rfl
@[simp] theorem State.setReg_idx (r : RegNum) (b : Byte) : (s.setReg r b).idx = s.idx := rfl
@[simp] theorem State.setReg_stack (r : RegNum) (b : Byte) : (s.setReg r b).stack = s.stack := rfl
@[simp] theorem State.setReg_sp (r : RegNum) (b : Byte) : (s.setReg r b).sp = s.sp := rfl
@[simp] theorem State.setReg_dt (r : RegNum) (b : Byte) : (s.setReg r b).dt = s.dt := rfl
@[simp] theorem State.setReg_st (r : RegNum) (b : Byte) : (s.setReg r b).st = s.st := rfl
@[simp] theorem State.setReg_keys (r : RegNum) (b : Byte) : (s.setReg r b).keys = s.keys := rfl
@[simp] theorem State.setReg_fb (r : RegNum) (b : Byte) : (s.setReg r b).fb = s.fb := rfl
@[simp] theorem State.setReg_mem (r : RegNum) (b : Byte) : (s.setReg r b).mem = s.mem := rfl
@[simp] theorem State.setReg_ir (r : RegNum) (b : Byte) : (s.setReg r b).ir = s.ir := rfl
@[simp] theorem State.setReg_fault (r : RegNum) (b : Byte) : (s.setReg r b).fault = s.fault := rfl
@[simp] theorem State.setReg_params (r : RegNum) (b : Byte) : (s.setReg r b).params = s.params := rfl
@[simp] theorem State.setReg_rnd (r : RegNum) (b : Byte) : (s.setReg r b).rnd = s.rnd := rfl
@[simp] theorem State.setReg_rndDraws (r : RegNum) (b : Byte) : (s.setReg r b).rndDraws = s.rndDraws := rfl
@[simp] theorem State.stackAt_setReg (r : RegNum) (b : Byte) (j : Fin 16) : (s.setReg r b).stackAt j = s.stackAt j := rfl
@[simp] theorem State.pixel_setReg (r : RegNum) (b : Byte) (x : Fin 64) (y : Fin 32) : (s.setReg r b).pixel x y = s.pixel x y := rfl
@[simp] theorem State.byteAt_setReg (r : RegNum) (b : Byte) (a : Nat) : (s.setReg r b).byteAt a = s.byteAt a := rfl
@[simp] theorem State.key_setReg (r : RegNum) (b : Byte) (n : Nat) : (s.setReg r b).key n = s.key n := rfl

@[simp] theorem State.setRegs_v (v : Vector Byte 16) : (s.setRegs v).v = v := rfl
@[simp] theorem State.setRegs_pc (v : Vector Byte 16) : (s.setRegs v).pc = s.pc := rfl
@[simp] theorem State.setRegs_idx (v : Vector Byte 16) : (s.setRegs v).idx = s.idx := rfl
@[simp] theorem State.setRegs_stack (v : Vector Byte 16) : (s.setRegs v).stack = s.stack := rfl
@[simp] theorem State.setRegs_sp (v : Vector Byte 16) : (s.setRegs v).sp = s.sp := rfl
@[simp] theorem State.setRegs_dt (v : Vector Byte 16) : (s.setRegs v).dt = s.dt := rfl
@[simp] theorem State.setRegs_st (v : Vector Byte 16) : (s.setRegs v).st = s.st := rfl
@[simp] theorem State.setRegs_keys (v : Vector Byte 16) : (s.setRegs v).keys = s.keys := rfl
@[simp] theorem State.setRegs_fb (v : Vector Byte 16) : (s.setRegs v).fb = s.fb := rfl
@[simp] theorem State.setRegs_mem (v : Vector Byte 16) : (s.setRegs v).mem = s.mem := rfl
@[simp] theorem State.setRegs_ir (v : Vector Byte 16) : (s.setRegs v).ir = s.ir := rfl
@[simp] theorem State.setRegs_fault (v : Vector Byte 16) : (s.setRegs v).fault = s.fault := rfl
@[simp] theorem State.setRegs_params (v : Vector Byte 16) : (s.setRegs v).params = s.params := rfl
@[simp] theorem State.setRegs_rnd (v : Vector Byte 16) : (s.setRegs v).rnd = s.rnd := rfl
@[simp] theorem State.setRegs_rndDraws (v : Vector Byte 16) : (s.setRegs v).rndDraws = s.rndDraws := rfl
@[simp] theorem State.stackAt_setRegs (v : Vector Byte 16) (j : Fin 16) : (s.setRegs v).stackAt j = s.stackAt j := rfl
@[simp] theorem State.pixel_setRegs (v : Vector Byte 16) (x : Fin 64) (y : Fin 32) : (s.setRegs v).pixel x y = s.pixel x y := rfl
@[simp] theorem State.byteAt_setRegs (v : Vector Byte 16) (a : Nat) : (s.setRegs v).byteAt a = s.byteAt a := rfl
@[simp] theorem State.key_setRegs (v : Vector Byte 16) (n : Nat) : (s.setRegs v).key n = s.key n := rfl

@[simp] theorem State.setPc_v (w : Word) : (s.setPc w).v = s.v := rfl
@[simp] theorem State.setPc_pc (w : Word) : (s.setPc w).pc = w := rfl
@[simp] theorem State.setPc_idx (w : Word) : (s.setPc w).idx = s.idx := rfl
@[simp] theorem State.setPc_stack (w : Word) : (s.setPc w).stack = s.stack := rfl
@[simp] theorem State.setPc_sp (w : Word) : (s.setPc w).sp = s.sp := rfl
@[simp] theorem State.setPc_dt (w : Word) : (s.setPc w).dt = s.dt := rfl
@[simp] theorem State.setPc_st (w : Word) : (s.setPc w).st = s.st := rfl
@[simp] theorem State.setPc_keys (w : Word) : (s.setPc w).keys = s.keys := rfl
@[simp] theorem State.setPc_fb (w : Word) : (s.setPc w).fb = s.fb := rfl
@[simp] theorem State.setPc_mem (w : Word) : (s.setPc w).mem = s.mem := rfl
@[simp] theorem State.setPc_ir (w : Word) : (s.setPc w).ir = s.ir := rfl
@[simp] theorem State.setPc_fault (w : Word) : (s.setPc w).fault = s.fault := rfl
@[simp] theorem State.setPc_params (w : Word) : (s.setPc w).params = s.params := rfl
@[simp] theorem State.setPc_rnd (w : Word) : (s.setPc w).rnd = s.rnd := rfl
@[simp] theorem State.setPc_rndDraws (w : Word) : (s.setPc w).rndDraws = s.rndDraws := rfl
@[simp] theorem State.reg_setPc (w : Word) (q : RegNum) : (s.setPc w).reg q = s.reg q := rfl
@[simp] theorem State.stackAt_setPc (w : Word) (j : Fin 16) : (s.setPc w).stackAt j = s.stackAt j := rfl
@[simp] theorem State.pixel_setPc (w : Word) (x : Fin 64) (y : Fin 32) : (s.setPc w).pixel x y = s.pixel x y := rfl
@[simp] theorem State.byteAt_setPc (w : Word) (a : Nat) : (s.setPc w).byteAt a = s.byteAt a := rfl
@[simp] theorem State.key_setPc (w : Word) (n : Nat) : (s.setPc w).key n = s.key n := rfl

@[simp] theorem State.setIdx_v (w : Word) : (s.setIdx w).v = s.v := rfl
@[simp] theorem State.setIdx_pc (w : Word) : (s.setIdx w).pc = s.pc := rfl
@[simp] theorem State.setIdx_idx (w : Word) : (s.setIdx w).idx = w := rfl
@[simp] theorem State.setIdx_stack (w : Word) : (s.setIdx w).stack = s.stack := rfl
@[simp] theorem State.setIdx_sp (w : Word) : (s.setIdx w).sp = s.sp := rfl
@[simp] theorem State.setIdx_dt (w : Word) : (s.setIdx w).dt = s.dt := rfl
@[simp] theorem State.setIdx_st (w : Word) : (s.setIdx w).st = s.st := rfl
@[simp] theorem State.setIdx_keys (w : Word) : (s.setIdx w).keys = s.keys := rfl
@[simp] theorem State.setIdx_fb (w : Word) : (s.setIdx w).fb = s.fb := rfl
@[simp] theorem State.setIdx_mem (w : Word) : (s.setIdx w).mem = s.mem := rfl
@[simp] theorem State.setIdx_ir (w : Word) : (s.setIdx w).ir = s.ir := rfl
@[simp] theorem State.setIdx_fault (w : Word) : (s.setIdx w).fault = s.fault := rfl
@[simp] theorem State.setIdx_params (w : Word) : (s.setIdx w).params = s.params := rfl
@[simp] theorem State.setIdx_rnd (w : Word) : (s.setIdx w).rnd = s.rnd := rfl
@[simp] theorem State.setIdx_rndDraws (w : Word) : (s.setIdx w).rndDraws = s.rndDraws := rfl
@[simp] theorem State.reg_setIdx (w : Word) (q : RegNum) : (s.setIdx w).reg q = s.reg q := rfl
@[simp] theorem State.stackAt_setIdx (w : Word) (j : Fin 16) : (s.setIdx w).stackAt j = s.stackAt j := rfl
@[simp] theorem State.pixel_setIdx (w : Word) (x : Fin 64) (y : Fin 32) : (s.setIdx w).pixel x y = s.pixel x y := rfl
@[simp] theorem State.byteAt_setIdx (w : Word) (a : Nat) : (s.setIdx w).byteAt a = s.byteAt a := rfl
@[simp] theorem State.key_setIdx (w : Word) (n : Nat) : (s.setIdx w).key n = s.key n := rfl

@[simp] theorem State.setDt_v (b : Byte) : (s.setDt b).v = s.v := rfl
@[simp] theorem State.setDt_pc (b : Byte) : (s.setDt b).pc = s.pc := rfl
@[simp] theorem State.setDt_idx (b : Byte) : (s.setDt b).idx = s.idx := rfl
@[simp] theorem State.setDt_stack (b : Byte) : (s.setDt b).stack = s.stack := rfl
@[simp] theorem State.setDt_sp (b : Byte) : (s.setDt b).sp = s.sp := rfl
@[simp] theorem State.setDt_dt (b : Byte) : (s.setDt b).dt = b := rfl
@[simp] theorem State.setDt_st (b : Byte) : (s.setDt b).st = s.st := rfl
@[simp] theorem State.setDt_keys (b : Byte) : (s.setDt b).keys = s.keys := rfl
@[simp] theorem State.setDt_fb (b : Byte) : (s.setDt b).fb = s.fb := rfl
@[simp] theorem State.setDt_mem (b : Byte) : (s.setDt b).mem = s.mem := rfl
@[simp] theorem State.setDt_ir (b : Byte) : (s.setDt b).ir = s.ir := rfl
@[simp] theorem State.setDt_fault (b : Byte) : (s.setDt b).fault = s.fault := rfl
@[simp] theorem State.setDt_params (b : Byte) : (s.setDt b).params = s.params := rfl
@[simp] theorem State.setDt_rnd (b : Byte) : (s.setDt b).rnd = s.rnd := rfl
@[simp] theorem State.setDt_rndDraws (b : Byte) : (s.setDt b).rndDraws = s.rndDraws := rfl
@[simp] theorem State.reg_setDt (b : Byte) (q : RegNum) : (s.setDt b).reg q = s.reg q := rfl
@[simp] theorem State.stackAt_setDt (b : Byte) (j : Fin 16) : (s.setDt b).stackAt j = s.stackAt j := rfl
@[simp] theorem State.pixel_setDt (b : Byte) (x : Fin 64) (y : Fin 32) : (s.setDt b).pixel x y = s.pixel x y := rfl
@[simp] theorem State.byteAt_setDt (b : Byte) (a : Nat) : (s.setDt b).byteAt a = s.byteAt a := rfl
@[simp] theorem State.key_setDt (b : Byte) (n : Nat) : (s.setDt b).key n = s.key n := rfl

@[simp] theorem State.setSt_v (b : Byte) : (s.setSt b).v = s.v := rfl
@[simp] theorem State.setSt_pc (b : Byte) : (s.setSt b).pc = s.pc := rfl
@[simp] theorem State.setSt_idx (b : Byte) : (s.setSt b).idx = s.idx := rfl
@[simp] theorem State.setSt_stack (b : Byte) : (s.setSt b).stack = s.stack := rfl
@[simp] theorem State.setSt_sp (b : Byte) : (s.setSt b).sp = s.sp := rfl
@[simp] theorem State.setSt_dt (b : Byte) : (s.setSt b).dt = s.dt := rfl
@[simp] theorem State.setSt_st (b : Byte) : (s.setSt b).st = b := rfl
@[simp] theorem State.setSt_keys (b : Byte) : (s.setSt b).keys = s.keys := rfl
@[simp] theorem State.setSt_fb (b : Byte) : (s.setSt b).fb = s.fb := rfl
@[simp] theorem State.setSt_mem (b : Byte) : (s.setSt b).mem = s.mem := rfl
@[simp] theorem State.setSt_ir (b : Byte) : (s.setSt b).ir = s.ir := rfl
@[simp] theorem State.setSt_fault (b : Byte) : (s.setSt b).fault = s.fault := rfl
@[simp] theorem State.setSt_params (b : Byte) : (s.setSt b).params = s.params := rfl
@[simp] theorem State.setSt_rnd (b : Byte) : (s.setSt b).rnd = s.rnd := rfl
@[simp] theorem State.setSt_rndDraws (b : Byte) : (s.setSt b).rndDraws = s.rndDraws := rfl
@[simp] theorem State.reg_setSt (b : Byte) (q : RegNum) : (s.setSt b).reg q = s.reg q := rfl
@[simp] theorem State.stackAt_setSt (b : Byte) (j : Fin 16) : (s.setSt b).stackAt j = s.stackAt j := rfl
@[simp] theorem State.pixel_setSt (b : Byte) (x : Fin 64) (y : Fin 32) : (s.setSt b).pixel x y = s.pixel x y := rfl
@[simp] theorem State.byteAt_setSt (b : Byte) (a : Nat) : (s.setSt b).byteAt a = s.byteAt a := rfl
@[simp] theorem State.key_setSt (b : Byte) (n : Nat) : (s.setSt b).key n = s.key n := rfl

@[simp] theorem State.setIr_v (w : Word) : (s.setIr w).v = s.v := rfl
@[simp] theorem State.setIr_pc (w : Word) : (s.setIr w).pc = s.pc := rfl
@[simp] theorem State.setIr_idx (w : Word) : (s.setIr w).idx = s.idx := rfl
@[simp] theorem State.setIr_stack (w : Word) : (s.setIr w).stack = s.stack := rfl
@[simp] theorem State.setIr_sp (w : Word) : (s.setIr w).sp = s.sp := rfl
@[simp] theorem State.setIr_dt (w : Word) : (s.setIr w).dt = s.dt := rfl
@[simp] theorem State.setIr_st (w : Word) : (s.setIr w).st = s.st := rfl
@[simp] theorem State.setIr_keys (w : Word) : (s.setIr w).keys = s.keys := rfl
@[simp] theorem State.setIr_fb (w : Word) : (s.setIr w).fb = s.fb := rfl
@[simp] theorem State.setIr_mem (w : Word) : (s.setIr w).mem = s.mem := rfl
@[simp] theorem State.setIr_ir (w : Word) : (s.setIr w).ir = w := rfl
@[simp] theorem State.setIr_fault (w : Word) : (s.setIr w).fault = s.fault := rfl
@[simp] theorem State.setIr_params (w : Word) : (s.setIr w).params = s.params := rfl
@[simp] theorem State.setIr_rnd (w : Word) : (s.setIr w).rnd = s.rnd := rfl
@[simp] theorem State.setIr_rndDraws (w : Word) : (s.setIr w).rndDraws = s.rndDraws := rfl
@[simp] theorem State.reg_setIr (w : Word) (q : RegNum) : (s.setIr w).reg q = s.reg q := rfl
@[simp] theorem State.stackAt_setIr (w : Word) (j : Fin 16) : (s.setIr w).stackAt j = s.stackAt j := rfl
@[simp] theorem State.pixel_setIr (w : Word) (x : Fin 64) (y : Fin 32) : (s.setIr w).pixel x y = s.pixel x y := rfl
@[simp] theorem State.byteAt_setIr (w : Word) (a : Nat) : (s.setIr w).byteAt a = s.byteAt a := rfl
@[simp] theorem State.key_setIr (w : Word) (n : Nat) : (s.setIr w).key n = s.key n := rfl

@[simp] theorem State.setFb_v (fb : Framebuffer) : (s.setFb fb).v = s.v := rfl
@[simp] theorem State.setFb_pc (fb : Framebuffer) : (s.setFb fb).pc = s.pc := rfl
@[simp] theorem State.setFb_idx (fb : Framebuffer) : (s.setFb fb).idx = s.idx := rfl
@[simp] theorem State.setFb_stack (fb : Framebuffer) : (s.setFb fb).stack = s.stack := rfl
@[simp] theorem State.setFb_sp (fb : Framebuffer) : (s.setFb fb).sp = s.sp := rfl
@[simp] theorem State.setFb_dt (fb : Framebuffer) : (s.setFb fb).dt = s.dt := rfl
@[simp] theorem State.setFb_st (fb : Framebuffer) : (s.setFb fb).st = s.st := rfl
@[simp] theorem State.setFb_keys (fb : Framebuffer) : (s.setFb fb).keys = s.keys := rfl
@[simp] theorem State.setFb_fb (fb : Framebuffer) : (s.setFb fb).fb = fb := rfl
@[simp] theorem State.setFb_mem (fb : Framebuffer) : (s.setFb fb).mem = s.mem := rfl
@[simp] theorem State.setFb_ir (fb : Framebuffer) : (s.setFb fb).ir = s.ir := rfl
@[simp] theorem State.setFb_fault (fb : Framebuffer) : (s.setFb fb).fault = s.fault := rfl
@[simp] theorem State.setFb_params (fb : Framebuffer) : (s.setFb fb).params = s.params := rfl
@[simp] theorem State.setFb_rnd (fb : Framebuffer) : (s.setFb fb).rnd = s.rnd := rfl
@[simp] theorem State.setFb_rndDraws (fb : Framebuffer) : (s.setFb fb).rndDraws = s.rndDraws := rfl
@[simp] theorem State.reg_setFb (fb : Framebuffer) (q : RegNum) : (s.setFb fb).reg q = s.reg q := rfl
@[simp] theorem State.stackAt_setFb (fb : Framebuffer) (j : Fin 16) : (s.setFb fb).stackAt j = s.stackAt j := rfl
@[simp] theorem State.byteAt_setFb (fb : Framebuffer) (a : Nat) : (s.setFb fb).byteAt a = s.byteAt a := rfl
@[simp] theorem State.key_setFb (fb : Framebuffer) (n : Nat) : (s.setFb fb).key n = s.key n := rfl

@[simp] theorem State.setMem_v (m : Memory) : (s.setMem m).v = s.v := rfl
@[simp] theorem State.setMem_pc (m : Memory) : (s.setMem m).pc = s.pc := rfl
@[simp] theorem State.setMem_idx (m : Memory) : (s.setMem m).idx = s.idx := rfl
@[simp] theorem State.setMem_stack (m : Memory) : (s.setMem m).stack = s.stack := rfl
@[simp] theorem State.setMem_sp (m : Memory) : (s.setMem m).sp = s.sp := rfl
@[simp] theorem State.setMem_dt (m : Memory) : (s.setMem m).dt = s.dt := rfl
@[simp] theorem State.setMem_st (m : Memory) : (s.setMem m).st = s.st := rfl
@[simp] theorem State.setMem_keys (m : Memory) : (s.setMem m).keys = s.keys := rfl
@[simp] theorem State.setMem_fb (m : Memory) : (s.setMem m).fb = s.fb := rfl
@[simp] theorem State.setMem_mem (m : Memory) : (s.setMem m).mem = m := rfl
@[simp] theorem State.setMem_ir (m : Memory) : (s.setMem m).ir = s.ir := rfl
@[simp] theorem State.setMem_fault (m : Memory) : (s.setMem m).fault = s.fault := rfl
@[simp] theorem State.setMem_params (m : Memory) : (s.setMem m).params = s.params := rfl
@[simp] theorem State.setMem_rnd (m : Memory) : (s.setMem m).rnd = s.rnd := rfl
@[simp] theorem State.setMem_rndDraws (m : Memory) : (s.setMem m).rndDraws = s.rndDraws := rfl
@[simp] theorem State.reg_setMem (m : Memory) (q : RegNum) : (s.setMem m).reg q = s.reg q := rfl
@[simp] theorem State.stackAt_setMem (m : Memory) (j : Fin 16) : (s.setMem m).stackAt j = s.stackAt j := rfl
@[simp] theorem State.pixel_setMem (m : Memory) (x : Fin 64) (y : Fin 32) : (s.setMem m).pixel x y = s.pixel x y := rfl
@[simp] theorem State.key_setMem (m : Memory) (n : Nat) : (s.setMem m).key n = s.key n := rfl

@[simp] theorem State.consumeRnd_v : (s.consumeRnd).v = s.v := rfl
@[simp] theorem State.consumeRnd_pc : (s.consumeRnd).pc = s.pc := rfl
@[simp] theorem State.consumeRnd_idx : (s.consumeRnd).idx = s.idx := rfl
@[simp] theorem State.consumeRnd_stack : (s.consumeRnd).stack = s.stack := rfl
@[simp] theorem State.consumeRnd_sp : (s.consumeRnd).sp = s.sp := rfl
@[simp] theorem State.consumeRnd_dt : (s.consumeRnd).dt = s.dt := rfl
@[simp] theorem State.consumeRnd_st : (s.consumeRnd).st = s.st := rfl
@[simp] theorem State.consumeRnd_keys : (s.consumeRnd).keys = s.keys := rfl
@[simp] theorem State.consumeRnd_fb : (s.consumeRnd).fb = s.fb := rfl
@[simp] theorem State.consumeRnd_mem : (s.consumeRnd).mem = s.mem := rfl
@[simp] theorem State.consumeRnd_ir : (s.consumeRnd).ir = s.ir := rfl
@[simp] theorem State.consumeRnd_fault : (s.consumeRnd).fault = s.fault := rfl
@[simp] theorem State.consumeRnd_params : (s.consumeRnd).params = s.params := rfl
@[simp] theorem State.consumeRnd_rnd : (s.consumeRnd).rnd = none := rfl
@[simp] theorem State.consumeRnd_rndDraws : (s.consumeRnd).rndDraws = s.rndDraws + 1 := rfl
@[simp] theorem State.reg_consumeRnd (q : RegNum) : (s.consumeRnd).reg q = s.reg q := rfl
@[simp] theorem State.stackAt_consumeRnd (j : Fin 16) : (s.consumeRnd).stackAt j = s.stackAt j := rfl
@[simp] theorem State.pixel_consumeRnd (x : Fin 64) (y : Fin 32) : (s.consumeRnd).pixel x y = s.pixel x y := rfl
@[simp] theorem State.byteAt_consumeRnd (a : Nat) : (s.consumeRnd).byteAt a = s.byteAt a := rfl
@[simp] theorem State.key_consumeRnd (n : Nat) : (s.consumeRnd).key n = s.key n := rfl

@[simp] theorem State.setKeys_v (k : BitVec 16) : (s.setKeys k).v = s.v := rfl
@[simp] theorem State.setKeys_pc (k : BitVec 16) : (s.setKeys k).pc = s.pc := rfl
@[simp] theorem State.setKeys_idx (k : BitVec 16) : (s.setKeys k).idx = s.idx := rfl
@[simp] theorem State.setKeys_stack (k : BitVec 16) : (s.setKeys k).stack = s.stack := rfl
@[simp] theorem State.setKeys_sp (k : BitVec 16) : (s.setKeys k).sp = s.sp := rfl
@[simp] theorem State.setKeys_dt (k : BitVec 16) : (s.setKeys k).dt = s.dt := rfl
@[simp] theorem State.setKeys_st (k : BitVec 16) : (s.setKeys k).st = s.st := rfl
@[simp] theorem State.setKeys_keys (k : BitVec 16) : (s.setKeys k).keys = k := rfl
@[simp] theorem State.setKeys_fb (k : BitVec 16) : (s.setKeys k).fb = s.fb := rfl
@[simp] theorem State.setKeys_mem (k : BitVec 16) : (s.setKeys k).mem = s.mem := rfl
@[simp] theorem State.setKeys_ir (k : BitVec 16) : (s.setKeys k).ir = s.ir := rfl
@[simp] theorem State.setKeys_fault (k : BitVec 16) : (s.setKeys k).fault = s.fault := rfl
@[simp] theorem State.setKeys_params (k : BitVec 16) : (s.setKeys k).params = s.params := rfl
@[simp] theorem State.setKeys_rnd (k : BitVec 16) : (s.setKeys k).rnd = s.rnd := rfl
@[simp] theorem State.setKeys_rndDraws (k : BitVec 16) : (s.setKeys k).rndDraws = s.rndDraws := rfl
@[simp] theorem State.reg_setKeys (k : BitVec 16) (q : RegNum) : (s.setKeys k).reg q = s.reg q := rfl
@[simp] theorem State.stackAt_setKeys (k : BitVec 16) (j : Fin 16) : (s.setKeys k).stackAt j = s.stackAt j := rfl
@[simp] theorem State.pixel_setKeys (k : BitVec 16) (x : Fin 64) (y : Fin 32) : (s.setKeys k).pixel x y = s.pixel x y := rfl
@[simp] theorem State.byteAt_setKeys (k : BitVec 16) (a : Nat) : (s.setKeys k).byteAt a = s.byteAt a := rfl

@[simp] theorem State.supplyRnd_v (r : Byte) : (s.supplyRnd r).v = s.v := rfl
@[simp] theorem State.supplyRnd_pc (r : Byte) : (s.supplyRnd r).pc = s.pc := rfl
@[simp] theorem State.supplyRnd_idx (r : Byte) : (s.supplyRnd r).idx = s.idx := rfl
@[simp] theorem State.supplyRnd_stack (r : Byte) : (s.supplyRnd r).stack = s.stack := rfl
@[simp] theorem State.supplyRnd_sp (r : Byte) : (s.supplyRnd r).sp = s.sp := rfl
@[simp] theorem State.supplyRnd_dt (r : Byte) : (s.supplyRnd r).dt = s.dt := rfl
@[simp] theorem State.supplyRnd_st (r : Byte) : (s.supplyRnd r).st = s.st := rfl
@[simp] theorem State.supplyRnd_keys (r : Byte) : (s.supplyRnd r).keys = s.keys := rfl
@[simp] theorem State.supplyRnd_fb (r : Byte) : (s.supplyRnd r).fb = s.fb := rfl
@[simp] theorem State.supplyRnd_mem (r : Byte) : (s.supplyRnd r).mem = s.mem := rfl
@[simp] theorem State.supplyRnd_ir (r : Byte) : (s.supplyRnd r).ir = s.ir := rfl
@[simp] theorem State.supplyRnd_fault (r : Byte) : (s.supplyRnd r).fault = s.fault := rfl
@[simp] theorem State.supplyRnd_params (r : Byte) : (s.supplyRnd r).params = s.params := rfl
@[simp] theorem State.supplyRnd_rnd (r : Byte) : (s.supplyRnd r).rnd = some r := rfl
@[simp] theorem State.supplyRnd_rndDraws (r : Byte) : (s.supplyRnd r).rndDraws = s.rndDraws := rfl
@[simp] theorem State.reg_supplyRnd (r : Byte) (q : RegNum) : (s.supplyRnd r).reg q = s.reg q := rfl
@[simp] theorem State.stackAt_supplyRnd (r : Byte) (j : Fin 16) : (s.supplyRnd r).stackAt j = s.stackAt j := rfl
@[simp] theorem State.pixel_supplyRnd (r : Byte) (x : Fin 64) (y : Fin 32) : (s.supplyRnd r).pixel x y = s.pixel x y := rfl
@[simp] theorem State.byteAt_supplyRnd (r : Byte) (a : Nat) : (s.supplyRnd r).byteAt a = s.byteAt a := rfl
@[simp] theorem State.key_supplyRnd (r : Byte) (n : Nat) : (s.supplyRnd r).key n = s.key n := rfl

end Sys2Proof.Machine
end

