-- ==== Sys2Proof/Laws/Registers.lean ====
section
/-! SUPPORT. What the register operations, the operand forms and the call stack do (R8, R11, R15, R144, R145). -/

namespace Sys2Proof.Machine

variable (s : State)

theorem State.reg_setReg (r q : RegNum) (b : Byte) : (s.setReg r b).reg q = if q = r then b else s.reg q := by
  simp only [State.reg, State.setReg, Fin.getElem_fin, Vector.getElem_set]
  by_cases h : q = r
  · simp [h]
  · rw [if_neg h, if_neg (fun hv => h (Fin.ext hv.symm))]

@[simp] theorem State.reg_setReg_same (r : RegNum) (b : Byte) : (s.setReg r b).reg r = b := by
  simp [State.reg_setReg]

theorem State.reg_setReg_other {r q : RegNum} (b : Byte) (h : q ≠ r) : (s.setReg r b).reg q = s.reg q := by
  simp [State.reg_setReg, h]

/-- Writing back what a register holds changes nothing. -/
theorem State.setReg_reg (r : RegNum) : s.setReg r (s.reg r) = s := by
  simp [State.setReg, State.reg]

/-- The last of two writes to one register wins (R8). -/
theorem State.setReg_setReg_same (r : RegNum) (a b : Byte) : (s.setReg r a).setReg r b = s.setReg r b := by
  simp [State.setReg]

/-- Writes to two registers commute. -/
theorem State.setReg_comm {r q : RegNum} (a b : Byte) (h : r ≠ q) :
    (s.setReg r a).setReg q b = (s.setReg q b).setReg r a := by
  have hv : r.val ≠ q.val := fun hc => h (Fin.ext hc)
  simp [State.setReg, Vector.set_comm _ _ hv]

/-- What a flag and a result leave in each register: the result in `V[x]`, the flag in `VF` unless that is `x`, and
every other register as it was (R8, R12). -/
theorem State.reg_writeFlagged (x q : RegNum) (c : Bool) (b : Byte) :
    (s.writeFlagged x c b).reg q = if q = x then b else if q = vf then flagByte c else s.reg q := by
  simp [State.writeFlagged, State.reg_setReg]

/-- What a skip leaves in `pc`. -/
theorem State.skipIf_pc (c : Bool) : (s.skipIf c).pc = if c then s.pc + 2#16 else s.pc := by
  cases c <;> rfl

/-- A skip changes `pc` and nothing else. -/
theorem State.skipIf_eq (c : Bool) : s.skipIf c = s.setPc (if c then s.pc + 2#16 else s.pc) := by
  cases c <;> rfl

@[simp] theorem State.regsUpTo_length (x : RegNum) : (s.regsUpTo x).length = x.val + 1 := by
  simp only [State.regsUpTo, List.length_take, Vector.length_toList]; omega

theorem State.regsUpTo_getElem (x : RegNum) (k : Nat) (hk : k < (s.regsUpTo x).length) :
    (s.regsUpTo x)[k] = s.reg ⟨k, by have := s.regsUpTo_length x; omega⟩ := by
  simp [State.regsUpTo, State.reg]

/-- A register that a loaded byte names holds it; every other register keeps its value (R145). -/
theorem loadRegs_getElem (v : Vector Byte 16) (bytes : List Byte) (k : RegNum) :
    (loadRegs v bytes)[k] = bytes.getD k.val v[k] := by
  simp [loadRegs]

theorem bcdDigits_length (b : Byte) : (bcdDigits b).length = 3 := rfl

/-- Everything a push can do (R15, R152). -/
theorem State.push_cases (t : Word) :
    (∃ h : s.sp.val < 16,
      s.push t = .ok { s with stack := s.stack.set s.sp.val t h, sp := ⟨s.sp.val + 1, by omega⟩ }) ∨
    (s.sp.val = 16 ∧ s.push t = .error .stackOverflow) := by
  unfold State.push
  split
  · rename_i h; exact .inl ⟨h, rfl⟩
  · exact .inr ⟨by omega, rfl⟩

/-- Everything a pop can do (R15, R153). -/
theorem State.popPc_cases :
    (∃ _ : s.sp.val ≠ 0, s.popPc =
      .ok { s with sp := ⟨s.sp.val - 1, by omega⟩, pc := s.stack[s.sp.val - 1]'(by omega) }) ∨
    (s.sp.val = 0 ∧ s.popPc = .error .stackUnderflow) := by
  unfold State.popPc
  split
  · rename_i h; exact .inr ⟨h, rfl⟩
  · rename_i h; exact .inl ⟨h, rfl⟩

/-- The first pressed key is pressed, and no lower key is (R133). -/
theorem State.firstKey_some {k : Nat} (h : s.firstKey = some k) :
    k < 16 ∧ s.key k = true ∧ ∀ j < k, s.key j = false := by
  unfold State.firstKey at h
  rw [List.find?_range_eq_some] at h
  simpa [and_assoc, and_left_comm] using h

theorem State.firstKey_none : s.firstKey = none ↔ ∀ j < 16, s.key j = false := by
  simp [State.firstKey]

end Sys2Proof.Machine
end

