-- ==== Sys2Proof/Laws/Display.lean ====
section
/-! SUPPORT. What drawing does to each cell of the framebuffer (R121): a cell is toggled exactly when a sprite bit of 1
lands on it, and a collision is a sprite bit of 1 landing on a cell that is set. -/

namespace Sys2Proof.Machine

/-- Cell `x` of a sprite row placed at column `x0`: bit `7 - (x - x0)` of the byte, for the 8 columns from `x0`. -/
theorem spriteRow_getMsbD (b : Byte) (x0 : Nat) (x : Nat) (hx : x < 64) :
    (spriteRow b x0).getMsbD x = (decide (x0 ≤ x) && decide (x - x0 < 8) && b.getLsbD (7 - (x - x0))) := by
  unfold spriteRow
  rw [BitVec.getMsbD_ushiftRight, BitVec.getMsbD_append]
  by_cases h : x0 ≤ x
  · by_cases h8 : x - x0 < 8
    · simp [hx, h, h8, Nat.not_lt.mpr h, BitVec.getMsbD]
    · simp [h, h8]
  · simp [h, Nat.lt_of_not_le h]

/-- Sprite row `k` of a list of rows covers cell `(x, y)` with a bit of 1, when the sprite starts at `(x0, y0)`. -/
def covers (rows : List Byte) (x0 y0 x y : Nat) : Bool :=
  decide (y0 ≤ y) && (spriteRow (rows.getD (y - y0) 0#8) x0).getMsbD x

theorem covers_nil (x0 y0 x y : Nat) : covers [] x0 y0 x y = false := by
  simp [covers, spriteRow]

theorem covers_cons (b : Byte) (bs : List Byte) (x0 y0 x y : Nat) :
    covers (b :: bs) x0 y0 x y =
      if y = y0 then (spriteRow b x0).getMsbD x else covers bs x0 (y0 + 1) x y := by
  unfold covers
  split
  · rename_i h; subst h; simp
  · rename_i h
    by_cases hle : y0 ≤ y
    · have h1 : y - y0 = (y - (y0 + 1)) + 1 := by omega
      simp [hle, show y0 + 1 ≤ y by omega, h1]
    · simp [hle, show ¬ y0 + 1 ≤ y by omega]

/-- What one sprite row leaves in each cell. -/
theorem drawRow_getMsbD (fb : Framebuffer) (x0 y0 : Nat) (b : Byte) (x : Nat) (y : Fin 32) :
    (drawRow fb x0 y0 b).1[y].getMsbD x =
      (fb[y].getMsbD x ^^ (decide (y.val = y0) && (spriteRow b x0).getMsbD x)) := by
  unfold drawRow
  split
  · simp only [Fin.getElem_fin, Vector.getElem_set]
    by_cases h : y0 = y.val
    · subst h; simp
    · simp [h, Ne.symm h]
  · rename_i h
    have : y.val ≠ y0 := by omega
    simp [this]

/-- What a sprite leaves in each cell (R121). -/
theorem drawRows_getMsbD (rows : List Byte) (fb : Framebuffer) (x0 y0 : Nat) (x : Nat) (y : Fin 32) :
    (drawRows fb x0 y0 rows).1[y].getMsbD x = (fb[y].getMsbD x ^^ covers rows x0 y0 x y.val) := by
  induction rows generalizing fb y0 with
  | nil => simp [drawRows, covers_nil]
  | cons b bs ih =>
    simp only [drawRows, ih, drawRow_getMsbD, covers_cons]
    by_cases h : y.val = y0
    · subst h
      have : covers bs x0 (y.val + 1) x y.val = false := by simp [covers]
      simp [this]
    · simp [h]

/-- A row of bits is nonzero exactly when one of its 64 cells is set. -/
theorem ne_zero_iff_getMsbD (w : BitVec 64) : (w != 0#64) = true ↔ ∃ x : Fin 64, w.getMsbD x.val = true := by
  rw [bne_iff_ne, ne_eq, ← not_iff_not, not_not, not_exists]
  constructor
  · rintro rfl x; simp
  · intro h
    apply BitVec.eq_of_getMsbD_eq
    intro i hi
    simpa using h ⟨i, hi⟩

/-- When one sprite row turns a set cell off. -/
theorem drawRow_hit (fb : Framebuffer) (x0 y0 : Nat) (b : Byte) :
    (drawRow fb x0 y0 b).2 = true ↔
      ∃ (x : Fin 64) (y : Fin 32), y.val = y0 ∧ fb[y].getMsbD x.val = true ∧ (spriteRow b x0).getMsbD x.val = true := by
  unfold drawRow
  split
  · rename_i h
    simp only [ne_zero_iff_getMsbD, BitVec.getMsbD_and, Bool.and_eq_true]
    constructor
    · rintro ⟨x, h1, h2⟩; exact ⟨x, ⟨y0, h⟩, rfl, h1, h2⟩
    · rintro ⟨x, y, rfl, h1, h2⟩; exact ⟨x, h1, h2⟩
  · rename_i h
    constructor
    · intro hc; cases hc
    · rintro ⟨x, y, rfl, _⟩; exact absurd y.isLt h

/-- The collision of a sprite: a bit of 1 lands, unclipped, on a cell that was set (R121). -/
theorem drawRows_hit (rows : List Byte) (fb : Framebuffer) (x0 y0 : Nat) :
    (drawRows fb x0 y0 rows).2 = true ↔
      ∃ (x : Fin 64) (y : Fin 32), fb[y].getMsbD x.val = true ∧ covers rows x0 y0 x.val y.val = true := by
  induction rows generalizing fb y0 with
  | nil => simp [drawRows, covers_nil]
  | cons b bs ih =>
    have hdef : (drawRows fb x0 y0 (b :: bs)).2 =
        ((drawRow fb x0 y0 b).2 || (drawRows (drawRow fb x0 y0 b).1 x0 (y0 + 1) bs).2) := rfl
    rw [hdef, Bool.or_eq_true, drawRow_hit, ih]
    constructor
    · rintro (⟨x, y, hy, h1, h2⟩ | ⟨x, y, h1, h2⟩)
      · exact ⟨x, y, h1, by rw [covers_cons, if_pos hy]; exact h2⟩
      · have hne : y.val ≠ y0 := by
          intro hc
          simp [covers, hc] at h2
        rw [drawRow_getMsbD] at h1
        simp only [hne, decide_false, Bool.false_and, Bool.xor_false] at h1
        exact ⟨x, y, h1, by rw [covers_cons, if_neg hne]; exact h2⟩
    · rintro ⟨x, y, h1, h2⟩
      rw [covers_cons] at h2
      split at h2
      · exact .inl ⟨x, y, ‹_›, h1, h2⟩
      · rename_i hne
        refine .inr ⟨x, y, ?_, h2⟩
        rw [drawRow_getMsbD]
        simpa [hne] using h1

theorem clearFb_getMsbD (x : Nat) (y : Fin 32) : clearFb[y].getMsbD x = false := by
  simp [clearFb]

end Sys2Proof.Machine
end

