-- ==== Sys2Proof/Laws/Encoding.lean ====
section
/-! SUPPORT. The fields of an instruction word and the formats they make (R61, R62): each field of a packed word is the
one packed, a word is made of its fields, and the masks of the opcode map select fields (R66). -/

namespace Sys2Proof

section Packed
variable (op sub ign4 : BitVec 4) (ign kk : BitVec 8) (nnn : BitVec 12) (x y : RegNum)

@[simp] theorem opField_packZ : opField (packZ ign sub) = 0x0#4 := by
  apply BitVec.eq_of_getLsbD_eq; intro i hi; interval_cases i <;> simp [opField, packZ]
@[simp] theorem midByte_packZ : midByte (packZ ign sub) = ign := by
  apply BitVec.eq_of_getLsbD_eq; intro i hi; interval_cases i <;> simp [midByte, packZ]
@[simp] theorem subField_packZ : subField (packZ ign sub) = sub := by
  apply BitVec.eq_of_getLsbD_eq; intro i hi; interval_cases i <;> simp [subField, packZ]
@[simp] theorem opField_packNNN : opField (packNNN op nnn) = op := by
  apply BitVec.eq_of_getLsbD_eq; intro i hi; interval_cases i <;> simp [opField, packNNN]
@[simp] theorem nnnField_packNNN : nnnField (packNNN op nnn) = nnn := by
  apply BitVec.eq_of_getLsbD_eq; intro i hi; interval_cases i <;> simp [nnnField, packNNN]
@[simp] theorem opField_packXKK : opField (packXKK op x kk) = op := by
  apply BitVec.eq_of_getLsbD_eq; intro i hi; interval_cases i <;> simp [opField, packXKK]
@[simp] theorem xField_packXKK : xField (packXKK op x kk) = x := by
  have h : (packXKK op x kk).extractLsb' 8 4 = BitVec.ofFin (w := 4) x := by
    apply BitVec.eq_of_getLsbD_eq; intro i hi; interval_cases i <;> simp [packXKK]
  simp [xField, h]
@[simp] theorem kkField_packXKK : kkField (packXKK op x kk) = kk := by
  apply BitVec.eq_of_getLsbD_eq; intro i hi; interval_cases i <;> simp [kkField, packXKK]
@[simp] theorem opField_packXY : opField (packXY op x y sub) = op := by
  apply BitVec.eq_of_getLsbD_eq; intro i hi; interval_cases i <;> simp [opField, packXY]
@[simp] theorem xField_packXY : xField (packXY op x y sub) = x := by
  have h : (packXY op x y sub).extractLsb' 8 4 = BitVec.ofFin (w := 4) x := by
    apply BitVec.eq_of_getLsbD_eq; intro i hi; interval_cases i <;> simp [packXY]
  simp [xField, h]
@[simp] theorem yField_packXY : yField (packXY op x y sub) = y := by
  have h : (packXY op x y sub).extractLsb' 4 4 = BitVec.ofFin (w := 4) y := by
    apply BitVec.eq_of_getLsbD_eq; intro i hi; interval_cases i <;> simp [packXY]
  simp [yField, h]
@[simp] theorem subField_packXY : subField (packXY op x y sub) = sub := by
  apply BitVec.eq_of_getLsbD_eq; intro i hi; interval_cases i <;> simp [subField, packXY]
@[simp] theorem nField_packXY : nField (packXY op x y sub) = sub.toFin := by
  have h : nField (packXY op x y sub) = (subField (packXY op x y sub)).toFin := rfl
  rw [h, subField_packXY]
@[simp] theorem opField_packXE : opField (packXE x ign4 sub) = 0xE#4 := by
  apply BitVec.eq_of_getLsbD_eq; intro i hi; interval_cases i <;> simp [opField, packXE]
@[simp] theorem xField_packXE : xField (packXE x ign4 sub) = x := by
  have h : (packXE x ign4 sub).extractLsb' 8 4 = BitVec.ofFin (w := 4) x := by
    apply BitVec.eq_of_getLsbD_eq; intro i hi; interval_cases i <;> simp [packXE]
  simp [xField, h]
@[simp] theorem midNibble_packXE : midNibble (packXE x ign4 sub) = ign4 := by
  apply BitVec.eq_of_getLsbD_eq; intro i hi; interval_cases i <;> simp [midNibble, packXE]
@[simp] theorem subField_packXE : subField (packXE x ign4 sub) = sub := by
  apply BitVec.eq_of_getLsbD_eq; intro i hi; interval_cases i <;> simp [subField, packXE]

end Packed

section Unpacked
variable (w : Word)

/-- A register field packed again is the four bits it came from. -/
theorem ofFin_xField : BitVec.ofFin (w := 4) (xField w) = w.extractLsb' 8 4 := rfl
theorem ofFin_yField : BitVec.ofFin (w := 4) (yField w) = w.extractLsb' 4 4 := rfl
theorem ofFin_nField : BitVec.ofFin (w := 4) (nField w) = subField w := rfl

theorem packZ_fields (h : opField w = 0x0#4) : packZ (midByte w) (subField w) = w := by
  unfold packZ; rw [← h]
  apply BitVec.eq_of_getLsbD_eq; intro i hi
  interval_cases i <;> simp [opField, midByte, subField]
theorem packNNN_fields : packNNN (opField w) (nnnField w) = w := by
  unfold packNNN
  apply BitVec.eq_of_getLsbD_eq; intro i hi
  interval_cases i <;> simp [opField, nnnField]
theorem packXKK_fields : packXKK (opField w) (xField w) (kkField w) = w := by
  unfold packXKK; rw [ofFin_xField]
  apply BitVec.eq_of_getLsbD_eq; intro i hi
  interval_cases i <;> simp [opField, kkField]
theorem packXY_fields : packXY (opField w) (xField w) (yField w) (subField w) = w := by
  unfold packXY; rw [ofFin_xField, ofFin_yField]
  apply BitVec.eq_of_getLsbD_eq; intro i hi
  interval_cases i <;> simp [opField, subField]
theorem packXE_fields (h : opField w = 0xE#4) : packXE (xField w) (midNibble w) (subField w) = w := by
  unfold packXE; rw [ofFin_xField, ← h]
  apply BitVec.eq_of_getLsbD_eq; intro i hi
  interval_cases i <;> simp [opField, midNibble, subField]

/-- The bytes of a word, high byte first, make the word (R42). -/
theorem wordOfBytes_bytes : wordOfBytes (highByte w) (lowByte w) = w := by
  apply BitVec.eq_of_getLsbD_eq; intro i hi
  interval_cases i <;> simp [wordOfBytes, highByte, lowByte]

/-! What the three masks of the opcode map select (R66). -/

theorem and_mask_op : w &&& 0xF000#16 = packXY (opField w) 0 0 0#4 := by
  unfold packXY
  apply BitVec.eq_of_getLsbD_eq; intro i hi
  interval_cases i <;> simp [opField]
theorem and_mask_op_sub : w &&& 0xF00F#16 = packXY (opField w) 0 0 (subField w) := by
  unfold packXY
  apply BitVec.eq_of_getLsbD_eq; intro i hi
  interval_cases i <;> simp [opField, subField]
theorem and_mask_op_kk : w &&& 0xF0FF#16 = packXKK (opField w) 0 (kkField w) := by
  unfold packXKK
  apply BitVec.eq_of_getLsbD_eq; intro i hi
  interval_cases i <;> simp [opField, kkField]

end Unpacked

end Sys2Proof
end

