-- ==== Sys2Proof/Laws/Memory.lean ====
section
/-! SUPPORT. What the memory operations do (R7, R44, R46, R50): a read after a write to the same place gives the value
written, a write leaves every other place alone, and every operation keeps the canonical form. -/

namespace Sys2Proof.Machine

variable {p : Config.Params}

theorem Memory.wfAbove_cons {lo : Nat} {c : Host.Cell} {m : Memory} :
    Memory.wfAbove p lo (c :: m) = true ↔
      lo ≤ c.1 ∧ c.1 < memSize ∧ c.2 ≠ resetByte p c.1 ∧ Memory.wfAbove p (c.1 + 1) m = true := by
  simp [Memory.wfAbove, and_assoc]

theorem Memory.wfAbove_mono {lo lo' : Nat} {m : Memory} (hle : lo ≤ lo')
    (h : Memory.wfAbove p lo' m = true) : Memory.wfAbove p lo m = true := by
  cases m with
  | nil => rfl
  | cons c m => rw [Memory.wfAbove_cons] at h ⊢; exact ⟨hle.trans h.1, h.2⟩

/-- An address below every listed one reads as the reset contents. -/
theorem Memory.read_below {m : Memory} {lo a : Nat} (h : Memory.wfAbove p lo m = true) (ha : a < lo) :
    Memory.read p m a = resetByte p a := by
  induction m generalizing lo with
  | nil => rfl
  | cons c m ih =>
    rw [Memory.wfAbove_cons] at h
    have hne : c.1 ≠ a := by omega
    simp only [Memory.read, hne, if_false]
    exact ih h.2.2.2 (by omega)

theorem Memory.read_entry_append_same {m : Memory} {a lo : Nat} {v : Byte}
    (h : Memory.wfAbove p lo m = true) (ha : a < lo) :
    Memory.read p (Memory.entry p a v ++ m) a = v := by
  unfold Memory.entry
  split
  · rename_i hv; rw [List.nil_append, Memory.read_below h ha, hv]
  · simp [Memory.read]

theorem Memory.read_entry_append_other {m : Memory} {a b : Nat} {v : Byte} (hne : b ≠ a) :
    Memory.read p (Memory.entry p a v ++ m) b = Memory.read p m b := by
  unfold Memory.entry
  split
  · rfl
  · simp [Memory.read, hne.symm]

theorem Memory.entry_append_wf {m : Memory} {a lo : Nat} {v : Byte} (hlo : lo ≤ a) (ha : a < memSize)
    (h : Memory.wfAbove p (a + 1) m = true) : Memory.wfAbove p lo (Memory.entry p a v ++ m) = true := by
  unfold Memory.entry
  split
  · exact Memory.wfAbove_mono (by omega) h
  · rename_i hv; exact Memory.wfAbove_cons.mpr ⟨hlo, ha, hv, h⟩

/-- A write keeps the canonical form above a bound that the address respects. -/
theorem Memory.write_wfAbove {m : Memory} {lo a : Nat} {v : Byte} (hlo : lo ≤ a) (ha : a < memSize)
    (h : Memory.wfAbove p lo m = true) : Memory.wfAbove p lo (Memory.write p m a v) = true := by
  induction m generalizing lo with
  | nil =>
    simpa [Memory.write] using Memory.entry_append_wf (m := []) (v := v) hlo ha rfl
  | cons c m ih =>
    have hc := Memory.wfAbove_cons.mp h
    simp only [Memory.write]
    split
    · rename_i hlt
      exact Memory.entry_append_wf hlo ha (Memory.wfAbove_cons.mpr ⟨by omega, hc.2⟩)
    · split
      · rename_i heq; subst heq; exact Memory.entry_append_wf hlo ha hc.2.2.2
      · exact Memory.wfAbove_cons.mpr ⟨hc.1, hc.2.1, hc.2.2.1, ih (by omega) hc.2.2.2⟩

theorem Memory.write_wf {m : Memory} {a : Nat} {v : Byte} (ha : a < memSize) (h : Memory.wf p m = true) :
    Memory.wf p (Memory.write p m a v) = true :=
  Memory.write_wfAbove (Nat.zero_le a) ha h

/-- A read after a write to the same address gives the value written. -/
theorem Memory.read_write_sameAbove {m : Memory} {lo a : Nat} {v : Byte} (h : Memory.wfAbove p lo m = true) :
    Memory.read p (Memory.write p m a v) a = v := by
  induction m generalizing lo with
  | nil => simpa [Memory.write] using Memory.read_entry_append_same (m := []) (lo := a + 1) (v := v) rfl (by omega)
  | cons c m ih =>
    have hc := Memory.wfAbove_cons.mp h
    simp only [Memory.write]
    split
    · rename_i hlt
      exact Memory.read_entry_append_same (lo := c.1) (Memory.wfAbove_cons.mpr ⟨le_refl _, hc.2⟩) hlt
    · split
      · rename_i heq; subst heq; exact Memory.read_entry_append_same hc.2.2.2 (by omega)
      · rename_i _ hne
        simp only [Memory.read, Ne.symm hne, if_false]
        exact ih hc.2.2.2

theorem Memory.read_write_same {m : Memory} {a : Nat} {v : Byte} (h : Memory.wf p m = true) :
    Memory.read p (Memory.write p m a v) a = v :=
  Memory.read_write_sameAbove h

/-- A write leaves every other address alone. -/
theorem Memory.read_write_other {m : Memory} {a b : Nat} {v : Byte} (hne : b ≠ a) :
    Memory.read p (Memory.write p m a v) b = Memory.read p m b := by
  induction m with
  | nil => simpa [Memory.write] using Memory.read_entry_append_other (m := []) (v := v) hne
  | cons c m ih =>
    simp only [Memory.write]
    split
    · exact Memory.read_entry_append_other hne
    · split
      · rename_i heq; subst heq
        rw [Memory.read_entry_append_other hne]
        simp [Memory.read, hne.symm]
      · simp [Memory.read, ih]

theorem Memory.writeBytes_wf {bs : List Byte} {m : Memory} {a : Nat} (ha : a + bs.length ≤ memSize)
    (h : Memory.wf p m = true) : Memory.wf p (Memory.writeBytes p m a bs) = true := by
  induction bs generalizing m a with
  | nil => exact h
  | cons b bs ih =>
    simp only [List.length_cons] at ha
    exact ih (by omega) (Memory.write_wf (by omega) h)

/-- An address outside the bytes written keeps its byte. -/
theorem Memory.read_writeBytes_outside {bs : List Byte} {m : Memory} {a b : Nat}
    (hb : b < a ∨ a + bs.length ≤ b) : Memory.read p (Memory.writeBytes p m a bs) b = Memory.read p m b := by
  induction bs generalizing m a with
  | nil => rfl
  | cons c bs ih =>
    simp only [List.length_cons] at hb
    simp only [Memory.writeBytes]
    rw [ih (by omega), Memory.read_write_other (by omega)]

/-- An address among the bytes written reads the byte written there. -/
theorem Memory.read_writeBytes_inside {bs : List Byte} {m : Memory} {a k : Nat} (hk : k < bs.length)
    (ha : a + bs.length ≤ memSize) (h : Memory.wf p m = true) :
    Memory.read p (Memory.writeBytes p m a bs) (a + k) = bs[k] := by
  induction bs generalizing m a k with
  | nil => simp at hk
  | cons c bs ih =>
    simp only [List.length_cons] at hk ha
    simp only [Memory.writeBytes]
    cases k with
    | zero => rw [Memory.read_writeBytes_outside (by omega)]; exact Memory.read_write_same h
    | succ k =>
      have := ih (m := Memory.write p m a c) (a := a + 1) (k := k) (by omega) (by omega)
        (Memory.write_wf (by omega) h)
      rw [List.getElem_cons_succ, ← this]; congr 1; omega

/-! The accesses through `I` (R44, R46): the whole range is checked, and then every byte is read or written. -/

theorem State.indexInBounds_iff (s : State) (n : Nat) :
    s.indexInBounds n = true ↔ n = 0 ∨ s.idx.toNat + n ≤ memSize := by
  simp [State.indexInBounds]

/-- Everything a read through `I` can do. -/
theorem State.readIndexed_cases (s : State) (n : Nat) :
    (s.indexInBounds n = true ∧
      s.readIndexed n = .ok ((List.range n).map fun k => s.byteAt (s.idx.toNat + k))) ∨
    (s.indexInBounds n = false ∧ s.readIndexed n = .error (.indexOutOfBounds s.lowestOffending)) := by
  unfold State.readIndexed
  cases h : s.indexInBounds n <;> simp

/-- Everything a write through `I` can do. -/
theorem State.writeIndexed_cases (s : State) (bs : List Byte) :
    (s.indexInBounds bs.length = true ∧
      s.writeIndexed bs = .ok (s.setMem (Memory.writeBytes s.params s.mem s.idx.toNat bs))) ∨
    (s.indexInBounds bs.length = false ∧
      s.writeIndexed bs = .error (.indexOutOfBounds s.lowestOffending)) := by
  unfold State.writeIndexed
  cases h : s.indexInBounds bs.length <;> simp

/-- A write through `I` that completes keeps the canonical form. -/
theorem State.writeIndexed_wf {s t : State} {bs : List Byte} (h : s.writeIndexed bs = .ok t)
    (hw : Memory.wf s.params s.mem = true) : Memory.wf t.params t.mem = true := by
  rcases s.writeIndexed_cases bs with ⟨hb, he⟩ | ⟨_, he⟩
  · rw [he] at h
    cases h
    rcases (s.indexInBounds_iff _).mp hb with h0 | h0
    · rw [List.length_eq_zero_iff] at h0; subst h0; exact hw
    · exact Memory.writeBytes_wf h0 hw
  · rw [he] at h; cases h

/-- Placing a word keeps the canonical form. -/
theorem State.placeWord_wf {s : State} {a : Nat} {w : Word} (hw : Memory.wf s.params s.mem = true) :
    Memory.wf (s.placeWord a w).params (s.placeWord a w).mem = true := by
  unfold State.placeWord
  split
  · exact Memory.writeBytes_wf (by simpa using ‹_›) hw
  · exact hw

/-- Loading an image that fits keeps the canonical form. -/
theorem State.loadImage_wf {s : State} {image : List Byte} (hl : image.length ≤ progMax)
    (hw : Memory.wf s.params s.mem = true) :
    Memory.wf (s.loadImage image).params (s.loadImage image).mem = true := by
  refine Memory.writeBytes_wf ?_ hw
  have : progBase.toNat = 512 := by decide
  simp only [progMax, memSize] at *
  omega

/-- Memory at reset lists nothing, so it is in canonical form. -/
theorem State.resetWith_wf (p : Config.Params) :
    Memory.wf (State.resetWith p).params (State.resetWith p).mem = true := rfl

end Sys2Proof.Machine
end

