-- ==== Sys2Proof/Laws/Step.lean ====
section
/-! SUPPORT. What a step can do, said once (R80), and what the phases around the instruction leave. -/

namespace Sys2Proof.Machine

variable (s : State)

@[simp] theorem State.fetched_pc : s.fetched.pc = s.pc + 2#16 := rfl
@[simp] theorem State.fetched_ir : s.fetched.ir = s.fetchWord := rfl
@[simp] theorem State.fetched_v : s.fetched.v = s.v := rfl
@[simp] theorem State.fetched_idx : s.fetched.idx = s.idx := rfl
@[simp] theorem State.fetched_stack : s.fetched.stack = s.stack := rfl
@[simp] theorem State.fetched_sp : s.fetched.sp = s.sp := rfl
@[simp] theorem State.fetched_dt : s.fetched.dt = s.dt := rfl
@[simp] theorem State.fetched_st : s.fetched.st = s.st := rfl
@[simp] theorem State.fetched_keys : s.fetched.keys = s.keys := rfl
@[simp] theorem State.fetched_fb : s.fetched.fb = s.fb := rfl
@[simp] theorem State.fetched_mem : s.fetched.mem = s.mem := rfl
@[simp] theorem State.fetched_fault : s.fetched.fault = s.fault := rfl
@[simp] theorem State.fetched_params : s.fetched.params = s.params := rfl
@[simp] theorem State.fetched_rnd : s.fetched.rnd = s.rnd := rfl
@[simp] theorem State.fetched_rndDraws : s.fetched.rndDraws = s.rndDraws := rfl
@[simp] theorem State.reg_fetched (r : RegNum) : s.fetched.reg r = s.reg r := rfl
@[simp] theorem State.byteAt_fetched (a : Nat) : s.fetched.byteAt a = s.byteAt a := rfl

@[simp] theorem State.endStep_v : s.endStep.v = s.v := rfl
@[simp] theorem State.endStep_pc : s.endStep.pc = s.pc := rfl
@[simp] theorem State.endStep_idx : s.endStep.idx = s.idx := rfl
@[simp] theorem State.endStep_stack : s.endStep.stack = s.stack := rfl
@[simp] theorem State.endStep_sp : s.endStep.sp = s.sp := rfl
@[simp] theorem State.endStep_dt : s.endStep.dt = tickDown s.dt := rfl
@[simp] theorem State.endStep_st : s.endStep.st = tickDown s.st := rfl
@[simp] theorem State.endStep_keys : s.endStep.keys = s.keys := rfl
@[simp] theorem State.endStep_fb : s.endStep.fb = s.fb := rfl
@[simp] theorem State.endStep_mem : s.endStep.mem = s.mem := rfl
@[simp] theorem State.endStep_ir : s.endStep.ir = s.ir := rfl
@[simp] theorem State.endStep_fault : s.endStep.fault = s.fault := rfl
@[simp] theorem State.endStep_params : s.endStep.params = s.params := rfl
@[simp] theorem State.endStep_rnd : s.endStep.rnd = none := rfl
@[simp] theorem State.endStep_rndDraws : s.endStep.rndDraws = s.rndDraws + 1 := rfl
@[simp] theorem State.reg_endStep (r : RegNum) : s.endStep.reg r = s.reg r := rfl
@[simp] theorem State.byteAt_endStep (a : Nat) : s.endStep.byteAt a = s.byteAt a := rfl

theorem State.fetchInBounds_iff : s.fetchInBounds = true ↔ s.pc.toNat ≤ 0xFFE := by
  simp [State.fetchInBounds]

/-- The fetch of a core that is in bounds cannot wrap `pc` (R81). -/
theorem State.fetched_pc_toNat (h : s.pc.toNat ≤ 0xFFE) : s.fetched.pc.toNat = s.pc.toNat + 2 := by
  simp only [State.fetched_pc, BitVec.toNat_add, BitVec.toNat_ofNat]; omega

/-- A timer after its tick, as a number (R84). -/
theorem tickDown_toNat (b : Byte) : (tickDown b).toNat = b.toNat - 1 := by
  unfold tickDown
  split
  · rename_i h; subst h; rfl
  · rename_i h
    have h0 : b.toNat ≠ 0 := fun hc => h (BitVec.eq_of_toNat_eq hc)
    have hlt := b.isLt
    simp only [BitVec.toNat_sub, BitVec.toNat_ofNat]; omega

/-- What a fault-free core in bounds does: the instruction of the fetched word, then the end of the step (R80). -/
theorem step_of_fetch {s : State} (hf : s.fault = none) (hb : s.fetchInBounds = true) :
    step s = finish (runWord s.fetchWord s.fetched) := by
  simp [step, hf, hb]

theorem finish_next {r : Result} {t : State} (h : finish r = .next t) : ∃ u, r = .next u ∧ t = u.endStep := by
  cases r with
  | next u => exact ⟨u, rfl, by simpa [finish] using h.symm⟩
  | fault f => cases h
  | refused r => cases h

theorem finish_fault {r : Result} {f : Fault} (h : finish r = .fault f) : r = .fault f := by
  cases r with
  | next u => cases h
  | fault g => simpa [finish] using h
  | refused r => cases h

/-- Everything that a step which completes has done (R80): the core had not faulted, the fetch was in bounds, the word's
handler answered a state, and the step ended from there. -/
theorem step_next_cases {s t : State} (h : step s = .next t) :
    s.fault = none ∧ s.fetchInBounds = true ∧
      ∃ u, t = u.endStep ∧
        ((∃ i, decodeWord s.fetchWord = some i ∧ exec i s.fetched = .next u) ∨
          (decodeWord s.fetchWord = none ∧ u = s.fetched)) := by
  unfold step at h
  cases hf : s.fault with
  | some f => rw [hf] at h; cases h
  | none =>
    rw [hf] at h
    cases hb : s.fetchInBounds with
    | false => simp [hb, raise] at h
    | true =>
      simp only [hb, if_true] at h
      obtain ⟨u, hu, rfl⟩ := finish_next h
      refine ⟨rfl, rfl, u, rfl, ?_⟩
      unfold runWord at hu
      cases hd : decodeWord s.fetchWord with
      | none => rw [hd] at hu; exact .inr ⟨rfl, by simpa [execNop] using hu.symm⟩
      | some i => rw [hd] at hu; exact .inl ⟨i, rfl, hu⟩

/-- Everything that a step which faults has met (R151). -/
theorem step_fault_cases {s : State} {f : Fault} (h : step s = .fault f) :
    s.fault = none ∧
      ((s.fetchInBounds = false ∧ f = .fetchOutOfBounds s.pc) ∨
        (s.fetchInBounds = true ∧ ∃ i, decodeWord s.fetchWord = some i ∧ exec i s.fetched = .fault f)) := by
  unfold step at h
  cases hf : s.fault with
  | some f => rw [hf] at h; cases h
  | none =>
    rw [hf] at h
    refine ⟨rfl, ?_⟩
    cases hb : s.fetchInBounds with
    | false =>
      simp only [hb, raise, Bool.false_eq_true, if_false, Host.Outcome.fault.injEq] at h
      exact .inl ⟨rfl, h.symm⟩
    | true =>
      simp only [hb, if_true] at h
      have hr := finish_fault h
      unfold runWord at hr
      cases hd : decodeWord s.fetchWord with
      | none => rw [hd] at hr; cases hr
      | some i => rw [hd] at hr; exact .inr ⟨rfl, i, rfl, hr⟩

end Sys2Proof.Machine
end

