-- ==== Sys2Proof/Laws/Exec.lean ====
section
/-! SUPPORT. What the instructions whose meaning branches answer in each case, as one equation per case; the meanings
without a branch are equations already. Frames of the updates in the words of Safety.lean. -/

namespace Sys2Proof.Machine

variable {s : State}

/-! Frames of the updates. -/

theorem sameRest_refl (s : State) : SameRest s s := ⟨rfl, rfl, rfl, rfl, rfl, rfl⟩

theorem sameBeyondRegs_setReg (s : State) (r : RegNum) (b : Byte) : SameBeyondRegs s (s.setReg r b) :=
  ⟨⟨rfl, fun _ => rfl⟩, ⟨rfl, rfl⟩, fun _ _ => rfl, fun _ => rfl, sameRest_refl s⟩

theorem sameBeyondRegs_setRegs (s : State) (v : Vector Byte 16) : SameBeyondRegs s (s.setRegs v) :=
  ⟨⟨rfl, fun _ => rfl⟩, ⟨rfl, rfl⟩, fun _ _ => rfl, fun _ => rfl, sameRest_refl s⟩

theorem onlyReg_setReg (s : State) (x : RegNum) (b : Byte) : OnlyRegMayDiffer x s (s.setReg x b) :=
  ⟨fun _ h => s.reg_setReg_other b h, rfl, rfl, sameBeyondRegs_setReg s x b⟩

theorem onlyRegAndFlag_writeFlagged (s : State) (x : RegNum) (c : Bool) (b : Byte) :
    OnlyRegAndFlagMayDiffer x s (s.writeFlagged x c b) :=
  ⟨fun r h h' => by simp [State.reg_writeFlagged, h, h'], rfl, rfl,
    ⟨⟨rfl, fun _ => rfl⟩, ⟨rfl, rfl⟩, fun _ _ => rfl, fun _ => rfl, sameRest_refl s⟩⟩

theorem onlyPc_setPc (s : State) (w : Word) : OnlyPcMayDiffer s (s.setPc w) :=
  ⟨fun _ => rfl, rfl, ⟨rfl, fun _ => rfl⟩, ⟨rfl, rfl⟩, fun _ _ => rfl, fun _ => rfl, sameRest_refl s⟩

theorem onlyPc_skipIf (s : State) (c : Bool) : OnlyPcMayDiffer s (s.skipIf c) := by
  rw [State.skipIf_eq]; exact onlyPc_setPc s _

theorem onlyIdx_setIdx (s : State) (w : Word) : OnlyIdxMayDiffer s (s.setIdx w) :=
  ⟨fun _ => rfl, rfl, ⟨rfl, fun _ => rfl⟩, ⟨rfl, rfl⟩, fun _ _ => rfl, fun _ => rfl, sameRest_refl s⟩

theorem onlyMem_setMem (s : State) (m : Memory) : OnlyMemMayDiffer s (s.setMem m) :=
  ⟨fun _ => rfl, rfl, rfl, ⟨rfl, fun _ => rfl⟩, ⟨rfl, rfl⟩, fun _ _ => rfl, sameRest_refl s⟩

/-! Immediates as numbers (R63). -/

theorem addr16_toNat (nnn : BitVec 12) : (addr16 nnn).toNat = nnn.toNat := by
  have := nnn.isLt; simp only [addr16, BitVec.toNat_setWidth]; omega

theorem zext16_toNat (b : Byte) : (zext16 b).toNat = b.toNat := by
  have := b.isLt; simp only [zext16, BitVec.toNat_setWidth]; omega

theorem wordOfBytes_toNat (hi lo : Byte) : (wordOfBytes hi lo).toNat = hi.toNat * 256 + lo.toNat := by
  have := hi.isLt
  have := lo.isLt
  simp only [wordOfBytes, BitVec.toNat_or, BitVec.toNat_shiftLeft, BitVec.toNat_setWidth]
  rw [Nat.mod_eq_of_lt (show hi.toNat < 2 ^ 16 by omega), Nat.mod_eq_of_lt (show lo.toNat < 2 ^ 16 by omega),
    Nat.shiftLeft_eq, Nat.mod_eq_of_lt (by omega), ← Nat.shiftLeft_eq, ← Nat.shiftLeft_add_eq_or_of_lt (by omega),
    Nat.shiftLeft_eq]

/-! Accesses through `I`. -/

theorem State.indexInBounds_false_iff (n : Nat) :
    s.indexInBounds n = false ↔ 0 < n ∧ 4095 < s.idx.toNat + n - 1 := by
  rw [← not_iff_not, Bool.not_eq_false, State.indexInBounds_iff]; simp only [memSize]; omega

theorem State.readIndexed_of_inBounds {n : Nat} (h : s.indexInBounds n = true) :
    s.readIndexed n = .ok ((List.range n).map fun k => s.byteAt (s.idx.toNat + k)) := by
  simp [State.readIndexed, h]

theorem State.readIndexed_of_outOfBounds {n : Nat} (h : s.indexInBounds n = false) :
    s.readIndexed n = .error (.indexOutOfBounds (max s.idx.toNat 4096)) := by
  simp [State.readIndexed, h, State.lowestOffending, memSize]

theorem State.writeIndexed_of_inBounds {bs : List Byte} (h : s.indexInBounds bs.length = true) :
    s.writeIndexed bs = .ok (s.setMem (Memory.writeBytes s.params s.mem s.idx.toNat bs)) := by
  simp [State.writeIndexed, h]

theorem State.writeIndexed_of_outOfBounds {bs : List Byte} (h : s.indexInBounds bs.length = false) :
    s.writeIndexed bs = .error (.indexOutOfBounds (max s.idx.toNat 4096)) := by
  simp [State.writeIndexed, h, State.lowestOffending, memSize]

/-! The instructions whose meaning branches. -/

theorem exec_ret_of_pos {ign : BitVec 8} (h : s.sp.val ≠ 0) :
    exec (.ret ign) s = .next { s with
      sp := ⟨s.sp.val - 1, by omega⟩, pc := s.stack[s.sp.val - 1]'(by omega) } := by
  simp [exec, execRet, State.popPc, h]

theorem exec_ret_of_zero {ign : BitVec 8} (h : s.sp.val = 0) : exec (.ret ign) s = .fault .stackUnderflow := by
  simp [exec, execRet, State.popPc, h, raise]

theorem exec_call_of_lt {nnn : BitVec 12} (h : s.sp.val < 16) :
    exec (.call nnn) s = .next (State.setPc { s with
      stack := s.stack.set s.sp.val s.pc h, sp := ⟨s.sp.val + 1, by omega⟩ } (addr16 nnn)) := by
  simp [exec, execCall, State.push, h]

theorem exec_call_of_full {nnn : BitVec 12} (h : s.sp.val = 16) :
    exec (.call nnn) s = .fault .stackOverflow := by
  simp [exec, execCall, State.push, h, raise]

theorem exec_ldVxK_of_some {x : RegNum} {k : Nat} (h : s.firstKey = some k) :
    exec (.ldVxK x) s = .next (s.setReg x (BitVec.ofNat 8 k)) := by
  simp [exec, execLdVxK, h]

theorem exec_ldVxK_of_none {x : RegNum} (h : s.firstKey = none) : exec (.ldVxK x) s = .next s.rollBack := by
  simp [exec, execLdVxK, h]

/-- The framebuffer and the collision a draw computes from the state (R121). -/
def State.drawn (s : State) (x y : RegNum) (n : Nat) : Framebuffer × Bool :=
  drawRows s.fb ((s.reg x).toNat % 64) ((s.reg y).toNat % 32)
    ((List.range n).map fun k => s.byteAt (s.idx.toNat + k))

theorem exec_drw_of_inBounds {x y : RegNum} {n : Fin 16} (h : s.indexInBounds n.val = true) :
    exec (.drw x y n) s =
      .next ((s.setFb (s.drawn x y n.val).1).setReg vf (flagByte (s.drawn x y n.val).2)) := by
  simp [exec, execDrw, State.readIndexed_of_inBounds h, State.drawn]

theorem exec_ldB_of_inBounds {x : RegNum} (h : s.indexInBounds 3 = true) :
    exec (.ldB x) s =
      .next (s.setMem (Memory.writeBytes s.params s.mem s.idx.toNat (bcdDigits (s.reg x)))) := by
  simp [exec, execLdB, State.writeIndexed_of_inBounds (bs := bcdDigits (s.reg x)) h]

theorem exec_ldMemVx_of_inBounds {x : RegNum} (h : s.indexInBounds (x.val + 1) = true) :
    exec (.ldMemVx x) s =
      .next (s.setMem (Memory.writeBytes s.params s.mem s.idx.toNat (s.regsUpTo x))) := by
  have hl : s.indexInBounds (s.regsUpTo x).length = true := by rw [State.regsUpTo_length]; exact h
  simp [exec, execLdMemVx, State.writeIndexed_of_inBounds hl]

theorem exec_ldVxMem_of_inBounds {x : RegNum} (h : s.indexInBounds (x.val + 1) = true) :
    exec (.ldVxMem x) s = .next (s.setRegs (loadRegs s.v
      ((List.range (x.val + 1)).map fun k => s.byteAt (s.idx.toNat + k)))) := by
  simp [exec, execLdVxMem, State.readIndexed_of_inBounds h]

/-- An instruction that reaches out of memory through `I` faults (R154). -/
theorem exec_of_outOfBounds {i : Instr} (h : s.indexInBounds (indexedLength i) = false) :
    exec i s = .fault (.indexOutOfBounds (max s.idx.toNat 4096)) := by
  have h0 := (s.indexInBounds_false_iff _).mp h
  cases i <;> simp only [indexedLength, Nat.lt_irrefl, false_and] at h h0
  case drw x y n => simp [exec, execDrw, State.readIndexed_of_outOfBounds h, raise]
  case ldB x => simp [exec, execLdB, State.writeIndexed_of_outOfBounds (bs := bcdDigits (s.reg x)) h, raise]
  case ldMemVx x =>
    have hl : s.indexInBounds (s.regsUpTo x).length = false := by rw [State.regsUpTo_length]; exact h
    simp [exec, execLdMemVx, State.writeIndexed_of_outOfBounds hl, raise]
  case ldVxMem x => simp [exec, execLdVxMem, State.readIndexed_of_outOfBounds h, raise]

/-- Everything an instruction can answer: a next state, or the one fault of its own under that fault's condition (R151);
never a refusal. -/
theorem exec_answers (i : Instr) (s : State) :
    (∃ t, exec i s = .next t) ∨
    (exec i s = .fault .stackOverflow ∧ s.sp.val = 16 ∧ ∃ nnn, i = .call nnn) ∨
    (exec i s = .fault .stackUnderflow ∧ s.sp.val = 0 ∧ ∃ ign, i = .ret ign) ∨
    (exec i s = .fault (.indexOutOfBounds (max s.idx.toNat 4096)) ∧ s.indexInBounds (indexedLength i) = false) := by
  cases hb : s.indexInBounds (indexedLength i) with
  | false => exact .inr (.inr (.inr ⟨exec_of_outOfBounds hb, rfl⟩))
  | true =>
    cases i
    case ret ign =>
      by_cases h : s.sp.val = 0
      · exact .inr (.inr (.inl ⟨exec_ret_of_zero h, h, ign, rfl⟩))
      · exact .inl ⟨_, exec_ret_of_pos h⟩
    case call nnn =>
      by_cases h : s.sp.val = 16
      · exact .inr (.inl ⟨exec_call_of_full h, h, nnn, rfl⟩)
      · exact .inl ⟨_, exec_call_of_lt (by omega)⟩
    case ldVxK x =>
      cases hk : s.firstKey with
      | none => exact .inl ⟨_, exec_ldVxK_of_none hk⟩
      | some k => exact .inl ⟨_, exec_ldVxK_of_some hk⟩
    case drw x y n => exact .inl ⟨_, exec_drw_of_inBounds hb⟩
    case ldB x => exact .inl ⟨_, exec_ldB_of_inBounds hb⟩
    case ldMemVx x => exact .inl ⟨_, exec_ldMemVx_of_inBounds hb⟩
    case ldVxMem x => exact .inl ⟨_, exec_ldVxMem_of_inBounds hb⟩
    all_goals exact .inl ⟨_, rfl⟩

/-- The draw toggles the cells the sprite lands on. -/
theorem State.drawn_pixel (x y : RegNum) (n : Nat) (px : Nat) (py : Fin 32) :
    (s.drawn x y n).1[py].getMsbD px =
      (s.fb[py].getMsbD px ^^ covers ((List.range n).map fun k => s.byteAt (s.idx.toNat + k))
        ((s.reg x).toNat % 64) ((s.reg y).toNat % 32) px py.val) :=
  drawRows_getMsbD ..

end Sys2Proof.Machine
end

