-- ==== Sys2Proof/Laws/PerInstr.lean ====
section
/-! SUPPORT. Facts about every instruction as syntax, one lemma per constructor. Family RowMatch: the word of an
instruction belongs to its own row of the opcode map (R65, R66). -/

namespace Sys2Proof.Laws.RowMatch

/-- The encoded word hits the instruction's own row of R66. -/
def Statement (i : Instr) : Prop := (opcodeRows[i.rowIndex]?).map (fun r => r.hits (encode i)) = some true

/-- A row keyed by the leading nibble alone. -/
theorem hits_op {pattern w : Word} (h : packXY (opField w) 0 0 0#4 = pattern) :
    (⟨0xF000#16, pattern⟩ : OpcodeRow).hits w = true := by
  simp [OpcodeRow.hits, and_mask_op, h]

/-- A row keyed by the leading and the low nibble. -/
theorem hits_op_sub {pattern w : Word} (h : packXY (opField w) 0 0 (subField w) = pattern) :
    (⟨0xF00F#16, pattern⟩ : OpcodeRow).hits w = true := by
  simp [OpcodeRow.hits, and_mask_op_sub, h]

/-- A row keyed by the leading nibble and the low byte. -/
theorem hits_op_kk {pattern w : Word} (h : packXKK (opField w) 0 (kkField w) = pattern) :
    (⟨0xF0FF#16, pattern⟩ : OpcodeRow).hits w = true := by
  simp [OpcodeRow.hits, and_mask_op_kk, h]

theorem cls (ign : BitVec 8) : Statement (.cls ign) :=
  congrArg some (hits_op_sub (by rw [encode]; simp; try rfl))
theorem ret (ign : BitVec 8) : Statement (.ret ign) :=
  congrArg some (hits_op_sub (by rw [encode]; simp; try rfl))
theorem jp (nnn : BitVec 12) : Statement (.jp nnn) :=
  congrArg some (hits_op (by rw [encode]; simp; try rfl))
theorem call (nnn : BitVec 12) : Statement (.call nnn) :=
  congrArg some (hits_op (by rw [encode]; simp; try rfl))
theorem seKk (x : RegNum) (kk : Byte) : Statement (.seKk x kk) :=
  congrArg some (hits_op (by rw [encode]; simp; try rfl))
theorem sneKk (x : RegNum) (kk : Byte) : Statement (.sneKk x kk) :=
  congrArg some (hits_op (by rw [encode]; simp; try rfl))
theorem seReg (x y : RegNum) (ign : BitVec 4) : Statement (.seReg x y ign) :=
  congrArg some (hits_op (by rw [encode]; simp; try rfl))
theorem ldKk (x : RegNum) (kk : Byte) : Statement (.ldKk x kk) :=
  congrArg some (hits_op (by rw [encode]; simp; try rfl))
theorem addKk (x : RegNum) (kk : Byte) : Statement (.addKk x kk) :=
  congrArg some (hits_op (by rw [encode]; simp; try rfl))
theorem ldReg (x y : RegNum) : Statement (.ldReg x y) :=
  congrArg some (hits_op_sub (by rw [encode]; simp; try rfl))
theorem orReg (x y : RegNum) : Statement (.orReg x y) :=
  congrArg some (hits_op_sub (by rw [encode]; simp; try rfl))
theorem andReg (x y : RegNum) : Statement (.andReg x y) :=
  congrArg some (hits_op_sub (by rw [encode]; simp; try rfl))
theorem xorReg (x y : RegNum) : Statement (.xorReg x y) :=
  congrArg some (hits_op_sub (by rw [encode]; simp; try rfl))
theorem addReg (x y : RegNum) : Statement (.addReg x y) :=
  congrArg some (hits_op_sub (by rw [encode]; simp; try rfl))
theorem subReg (x y : RegNum) : Statement (.subReg x y) :=
  congrArg some (hits_op_sub (by rw [encode]; simp; try rfl))
theorem shr (x y : RegNum) : Statement (.shr x y) :=
  congrArg some (hits_op_sub (by rw [encode]; simp; try rfl))
theorem subnReg (x y : RegNum) : Statement (.subnReg x y) :=
  congrArg some (hits_op_sub (by rw [encode]; simp; try rfl))
theorem shl (x y : RegNum) : Statement (.shl x y) :=
  congrArg some (hits_op_sub (by rw [encode]; simp; try rfl))
theorem sneReg (x y : RegNum) (ign : BitVec 4) : Statement (.sneReg x y ign) :=
  congrArg some (hits_op (by rw [encode]; simp; try rfl))
theorem ldI (nnn : BitVec 12) : Statement (.ldI nnn) :=
  congrArg some (hits_op (by rw [encode]; simp; try rfl))
theorem jpV0 (nnn : BitVec 12) : Statement (.jpV0 nnn) :=
  congrArg some (hits_op (by rw [encode]; simp; try rfl))
theorem rnd (x : RegNum) (kk : Byte) : Statement (.rnd x kk) :=
  congrArg some (hits_op (by rw [encode]; simp; try rfl))
theorem drw (x y : RegNum) (n : Fin 16) : Statement (.drw x y n) :=
  congrArg some (hits_op (by rw [encode]; simp; try rfl))
theorem skp (x : RegNum) (ign : BitVec 4) : Statement (.skp x ign) :=
  congrArg some (hits_op_sub (by rw [encode]; simp; try rfl))
theorem sknp (x : RegNum) (ign : BitVec 4) : Statement (.sknp x ign) :=
  congrArg some (hits_op_sub (by rw [encode]; simp; try rfl))
theorem ldVxDt (x : RegNum) : Statement (.ldVxDt x) :=
  congrArg some (hits_op_kk (by rw [encode]; simp; try rfl))
theorem ldVxK (x : RegNum) : Statement (.ldVxK x) :=
  congrArg some (hits_op_kk (by rw [encode]; simp; try rfl))
theorem ldDtVx (x : RegNum) : Statement (.ldDtVx x) :=
  congrArg some (hits_op_kk (by rw [encode]; simp; try rfl))
theorem ldStVx (x : RegNum) : Statement (.ldStVx x) :=
  congrArg some (hits_op_kk (by rw [encode]; simp; try rfl))
theorem addI (x : RegNum) : Statement (.addI x) :=
  congrArg some (hits_op_kk (by rw [encode]; simp; try rfl))
theorem ldF (x : RegNum) : Statement (.ldF x) :=
  congrArg some (hits_op_kk (by rw [encode]; simp; try rfl))
theorem ldB (x : RegNum) : Statement (.ldB x) :=
  congrArg some (hits_op_kk (by rw [encode]; simp; try rfl))
theorem ldMemVx (x : RegNum) : Statement (.ldMemVx x) :=
  congrArg some (hits_op_kk (by rw [encode]; simp; try rfl))
theorem ldVxMem (x : RegNum) : Statement (.ldVxMem x) :=
  congrArg some (hits_op_kk (by rw [encode]; simp; try rfl))

end Sys2Proof.Laws.RowMatch
end

