-- ==== Sys2Proof/Laws/Signals.lean ====
section
/-! SUPPORT. What an edge of the signal-level form does (R36): which requests a block accepts, what each does, and that a
block stays as it is while a step is under way. -/

namespace Sys2Proof.Machine

variable {cycles : Nat} {any : State}

/-- Before the first step every request is accepted (R36). -/
theorem Pins.accepted_of_ne_running (p : Pins) {ph : Phase} (h : ph ≠ .running) : p.accepted ph = p := by
  have h' : (ph != .running) = true := by simpa using h
  rw [Pins.accepted, h', Bool.and_true]

/-- After the first step `ld_en` is not accepted (R36). -/
@[simp] theorem Pins.accepted_running (p : Pins) : p.accepted .running = { p with ldEn := false } := by
  simp [Pins.accepted]

/-- An edge of a block that is not busy. -/
theorem Block.edge_of_not_busy {b : Block} (h : b.running = none) (p : Pins) :
    b.edge cycles any p = b.serve cycles any (p.accepted b.session.phase) := by
  simp [Block.edge, Block.edgeIdle, h]

/-- An edge of a busy block that is not the step's last changes no state, whatever is requested but `rst`. -/
theorem Block.edge_of_busy {c : Session} {r : Byte} {n : Nat} {p : Pins} (h : p.rst = false) :
    Block.edge cycles any p ⟨c, some ⟨r, n + 1⟩⟩ = .ok ⟨c, some ⟨r, n⟩⟩ := by
  simp [Block.edge, h]

/-- The last edge of a step is the host's `Step`. -/
theorem Block.edge_last {c : Session} {r : Byte} {p : Pins} (h : p.rst = false) :
    Block.edge cycles any p ⟨c, some ⟨r, 0⟩⟩ = (⟨c, some ⟨r, 0⟩⟩ : Block).host any (.step r) := by
  simp [Block.edge, h]

/-- Everything an accepted `ld_en` can do. -/
theorem Block.acceptLoad_cases (p : Pins) (b : Block) :
    (p.ldEn = false ∧ b.acceptLoad p = .ok b) ∨
    (p.ldEn = true ∧ p.ldAddr.toNat < 0x200 ∧ b.acceptLoad p = .error .loadBelowProgram) ∨
    (p.ldEn = true ∧ 0x200 ≤ p.ldAddr.toNat ∧ b.acceptLoad p = .ok (b.loadOne p.ldAddr p.ldData)) := by
  cases h : p.ldEn with
  | false => exact .inl ⟨rfl, by simp [Block.acceptLoad, h]⟩
  | true =>
    by_cases ha : p.ldAddr.toNat < 0x200
    · exact .inr (.inl ⟨rfl, ha, by simp [Block.acceptLoad, h, ha]⟩)
    · exact .inr (.inr ⟨rfl, by omega, by simp [Block.acceptLoad, h, ha]⟩)

/-- Edges one after another. -/
theorem Block.edges_append (ps qs : List Pins) (b : Block) :
    Block.edges cycles any (ps ++ qs) b =
      match Block.edges cycles any ps b with
      | .ok c => Block.edges cycles any qs c
      | .error e => .error e := by
  induction ps generalizing b with
  | nil => rfl
  | cons p ps ih =>
    simp only [List.cons_append, Block.edges]
    cases b.edge cycles any p <;> simp [ih]

/-- Loading one byte on the signals keeps the canonical form. -/
theorem Block.loadOne_wf {b : Block} {a : BitVec 12} {d : Byte}
    (hw : Memory.wf b.session.core.params b.session.core.mem = true) :
    Memory.wf (b.loadOne a d).session.core.params (b.loadOne a d).session.core.mem = true :=
  Memory.write_wf a.isLt hw

end Sys2Proof.Machine
end

