-- ==== Sys2Proof/Tests/Slice0.lean ====
section
/-! SUPPORT. Tests and witnesses. The words are written out from the opcode map of spec/30 (R62, R66); the expected
results are the vectors of spec/95, named beside each. The witnesses show that the hypotheses of the statements can be
met, each clause at an edge of its range. -/

namespace Sys2Proof.Tests
open Sys2Proof Sys2Proof.Machine

/-! ## Well-formed instructions: one ill-formed term for each check (R64) -/

theorem test_wf_cls : (Instr.cls 0x00#8).wellFormed = false ∧ (Instr.cls 0x0E#8).wellFormed = true := by decide
theorem test_wf_ret : (Instr.ret 0xFF#8).wellFormed = false ∧ (Instr.ret 0x0E#8).wellFormed = true := by decide
theorem test_wf_seReg : (Instr.seReg 1 2 0x1#4).wellFormed = false ∧ (Instr.seReg 1 2 0x0#4).wellFormed = true := by
  decide
theorem test_wf_sneReg : (Instr.sneReg 1 2 0xF#4).wellFormed = false ∧ (Instr.sneReg 1 2 0x0#4).wellFormed = true := by
  decide
theorem test_wf_skp : (Instr.skp 3 0x0#4).wellFormed = false ∧ (Instr.skp 3 0x9#4).wellFormed = true := by decide
theorem test_wf_sknp : (Instr.sknp 3 0x9#4).wellFormed = false ∧ (Instr.sknp 3 0xA#4).wellFormed = true := by decide

/-! ## Decoding: every row of R66, the word written out bit by bit -/

theorem test_decode_family0 :
    decodeWord 0b0000000011100000#16 = some (.cls 0x0E#8) ∧ decodeWord 0b0000000011101110#16 = some (.ret 0x0E#8) := by
  decide
theorem test_decode_jumps :
    decodeWord 0b0001101010111100#16 = some (.jp 0xABC#12) ∧
      decodeWord 0b0010001100000001#16 = some (.call 0x301#12) ∧
      decodeWord 0b1011111111110000#16 = some (.jpV0 0xFF0#12) := by decide
theorem test_decode_skips :
    decodeWord 0b0011101000101011#16 = some (.seKk 0xA 0x2B#8) ∧
      decodeWord 0b0100101000101011#16 = some (.sneKk 0xA 0x2B#8) ∧
      decodeWord 0b0101000100100000#16 = some (.seReg 1 2 0x0#4) ∧
      decodeWord 0b1001000100100000#16 = some (.sneReg 1 2 0x0#4) := by decide
theorem test_decode_immediates :
    decodeWord 0b0110101000101011#16 = some (.ldKk 0xA 0x2B#8) ∧
      decodeWord 0b0111000011111110#16 = some (.addKk 0 0xFE#8) ∧
      decodeWord 0b1100001100001111#16 = some (.rnd 3 0x0F#8) ∧
      decodeWord 0b1010001100000000#16 = some (.ldI 0x300#12) := by decide
theorem test_decode_family8_logic :
    decodeWord 0b1000000100100000#16 = some (.ldReg 1 2) ∧ decodeWord 0b1000000100100001#16 = some (.orReg 1 2) ∧
      decodeWord 0b1000000100100010#16 = some (.andReg 1 2) ∧ decodeWord 0b1000000100100011#16 = some (.xorReg 1 2) := by
  decide
theorem test_decode_family8_arithmetic :
    decodeWord 0b1000000100100100#16 = some (.addReg 1 2) ∧ decodeWord 0b1000000100100101#16 = some (.subReg 1 2) ∧
      decodeWord 0b1000000100100110#16 = some (.shr 1 2) ∧ decodeWord 0b1000000100100111#16 = some (.subnReg 1 2) ∧
      decodeWord 0b1000000100101110#16 = some (.shl 1 2) := by decide
theorem test_decode_draw : decodeWord 0b1101000100101111#16 = some (.drw 1 2 15) := by decide
theorem test_decode_familyE :
    decodeWord 0b1110001110011110#16 = some (.skp 3 0x9#4) ∧ decodeWord 0b1110001110100001#16 = some (.sknp 3 0xA#4) := by
  decide
theorem test_decode_familyF_keys_timers :
    decodeWord 0b1111000100000111#16 = some (.ldVxDt 1) ∧ decodeWord 0b1111000100001010#16 = some (.ldVxK 1) ∧
      decodeWord 0b1111000100010101#16 = some (.ldDtVx 1) ∧ decodeWord 0b1111000100011000#16 = some (.ldStVx 1) := by
  decide
theorem test_decode_familyF_index :
    decodeWord 0b1111001000011110#16 = some (.addI 2) ∧ decodeWord 0b1111001000101001#16 = some (.ldF 2) ∧
      decodeWord 0b1111001000110011#16 = some (.ldB 2) ∧ decodeWord 0b1111001001010101#16 = some (.ldMemVx 2) ∧
      decodeWord 0b1111001001100101#16 = some (.ldVxMem 2) := by decide

/-- V-DEC-1, V-DEC-6, V-DEC-7, V-DEC-9: ignored bits. -/
theorem test_decode_ignored_bits :
    decodeWord 0x0000#16 = some (.cls 0x00#8) ∧ decodeWord 0x000E#16 = some (.ret 0x00#8) ∧
      decodeWord 0x5121#16 = some (.seReg 1 2 0x1#4) ∧ decodeWord 0xE10E#16 = some (.skp 1 0x0#4) := by decide
/-- V-DEC-4, V-DEC-5, V-DEC-11 to V-DEC-15: unmapped words. -/
theorem test_decode_unmapped :
    decodeWord 0x0001#16 = none ∧ decodeWord 0x00EF#16 = none ∧ decodeWord 0xE19F#16 = none ∧
      decodeWord 0xF1FF#16 = none ∧ decodeWord 0xF100#16 = none ∧ decodeWord 0x801F#16 = none ∧
      decodeWord 0x8128#16 = none := by decide
/-- The bytes in memory order, the high byte first (R42). -/
theorem test_decode_bytes :
    decode [0x12#8, 0x34#8, 0x60#8] = .ok (.jp 0x234#12, [0x60#8]) ∧ decode [0x80#8, 0x18#8] = .error (.unmapped 0x8018#16) ∧
      decode [0x12#8] = .error .truncated := ⟨rfl, rfl, rfl⟩
theorem test_decode_table_word :
    decodeTableWord 16 0x8014 = some (.addReg 0 1) ∧ decodeTableWord 16 0xF033 = some (.ldB 0) := by decide

/-! ## One step -/

/-- The step of a state with a word placed at `pc` answers a next state that passes the check. -/
def steps (s : State) (w : Nat) (check : State → Bool) : Bool :=
  match step (s.withFetchWord 16 w) with
  | .next t => check t
  | _ => false

/-- The step of a state with a word placed at `pc` is this fault. -/
def faults (s : State) (w : Nat) (f : Fault) : Bool :=
  match step (s.withFetchWord 16 w) with
  | .fault g => g == f
  | _ => false

/-- The reset state with some registers preset. -/
def withRegs (rs : List (RegNum × Byte)) : State := rs.foldl (fun s r => s.setReg r.1 r.2) State.reset

/-- A state with `I` preset and bytes stored there. -/
def withBytes (s : State) (a : Nat) (bs : List Byte) : State :=
  (s.setIdx (BitVec.ofNat 16 a)).setMem (Memory.writeBytes s.params s.mem a bs)

/-- The same state with one framebuffer cell set. -/
def withPixel (s : State) (x : Nat) (y : Fin 32) : State :=
  s.setFb (s.fb.set y (s.fb[y] ||| BitVec.ofNat 64 (2 ^ (63 - x))))

/-- V-STEP-1 and V-CF-1. -/
theorem test_step_jp : steps State.reset 0x1234 (fun t => t.ir == 0x1234#16 && t.pc == 0x234#16) = true := by decide
/-- V-STEP-2 and V-STEP-4: an unmapped word ticks the timers. -/
theorem test_step_unmapped :
    steps (State.reset.setDt 3#8) 0x8018 (fun t => t.pc == 0x202#16 && t.dt == 2#8) = true ∧
      steps (State.reset.setDt 1#8) 0xF1FF (fun t => t.dt == 0#8 && t.st == 0#8) = true := by decide
/-- V-STEP-3: an odd `pc`. -/
theorem test_step_odd_pc :
    steps (State.reset.setPc 0x201#16) 0x6A2B (fun t => t.reg 0xA == 0x2B#8 && t.pc == 0x203#16) = true := by decide
/-- V-STEP-5 and V-FLT-1: the last legal fetch, and the first illegal one. -/
theorem test_step_fetch_bound :
    steps (State.reset.setPc 0xFFE#16) 0x0000 (fun t => t.pc == 0x1000#16) = true ∧
      faults (State.reset.setPc 0xFFF#16) 0x0000 (.fetchOutOfBounds 0xFFF#16) = true := by decide

/-- V-CF-3, V-CF-15. -/
theorem test_call :
    steps State.reset 0x2300 (fun t => t.pc == 0x300#16 && t.sp == 1 && t.stackAt 0 == 0x202#16) = true ∧
      steps { State.reset with sp := 15 } 0x2300 (fun t => t.sp == 16 && t.stackAt 15 == 0x202#16) = true := by decide
/-- V-CF-16. -/
theorem test_call_overflow : faults { State.reset with sp := 16 } 0x2300 .stackOverflow = true := by decide
/-- V-CF-4. -/
theorem test_ret :
    steps { State.reset with sp := 1, stack := State.reset.stack.set 0 0xABC#16 } 0x00EE
      (fun t => t.pc == 0xABC#16 && t.sp == 0 && t.stackAt 0 == 0xABC#16) = true := by decide
/-- V-CF-17. -/
theorem test_ret_underflow : faults State.reset 0x00EE .stackUnderflow = true := by decide
/-- V-CF-11, V-CF-12. -/
theorem test_jpV0 :
    steps (withRegs [(0, 0x04#8)]) 0xB300 (fun t => t.pc == 0x304#16) = true ∧
      steps (withRegs [(0, 0xFF#8)]) 0xBFFF (fun t => t.pc == 0x10FE#16) = true := by decide
/-- V-CF-5, V-CF-6. -/
theorem test_seKk :
    steps (withRegs [(0xA, 0x2B#8)]) 0x3A2B (fun t => t.pc == 0x204#16) = true ∧
      steps (withRegs [(0xA, 0x2C#8)]) 0x3A2B (fun t => t.pc == 0x202#16) = true := by decide
/-- V-CF-7, V-CF-8. -/
theorem test_sneKk :
    steps (withRegs [(0xA, 0x2B#8)]) 0x4A2B (fun t => t.pc == 0x202#16) = true ∧
      steps (withRegs [(0xA, 0x2C#8)]) 0x4A2B (fun t => t.pc == 0x204#16) = true := by decide
/-- V-CF-9. -/
theorem test_seReg :
    steps (withRegs [(1, 7#8), (2, 7#8)]) 0x5120 (fun t => t.pc == 0x204#16) = true ∧
      steps (withRegs [(1, 7#8), (2, 8#8)]) 0x5120 (fun t => t.pc == 0x202#16) = true := by decide
/-- V-CF-10. -/
theorem test_sneReg :
    steps (withRegs [(1, 7#8), (2, 8#8)]) 0x9120 (fun t => t.pc == 0x204#16) = true ∧
      steps (withRegs [(1, 7#8), (2, 7#8)]) 0x9120 (fun t => t.pc == 0x202#16) = true := by decide

/-- V-ALU-1 to V-ALU-7: what the loads, the immediate add and the logic operations leave, `VF` included. -/
theorem test_ldKk : steps (withRegs [(0xF, 0xAA#8)]) 0x6A2B (fun t => t.reg 0xA == 0x2B#8 && t.reg 0xF == 0xAA#8) = true := by
  decide
theorem test_addKk : steps (withRegs [(0xF, 0xAA#8), (0, 0xFF#8)]) 0x7002 (fun t => t.reg 0 == 1#8 && t.reg 0xF == 0xAA#8) = true := by
  decide
theorem test_ldReg : steps (withRegs [(0, 0x12#8), (1, 0x34#8)]) 0x8010 (fun t => t.reg 0 == 0x34#8 && t.reg 1 == 0x34#8) = true := by
  decide
theorem test_orReg : steps (withRegs [(0xF, 0xAA#8), (0, 0xF0#8), (1, 0x0F#8)]) 0x8011 (fun t => t.reg 0 == 0xFF#8 && t.reg 0xF == 0xAA#8) = true := by
  decide
theorem test_andReg : steps (withRegs [(0xF, 0xAA#8), (0, 0xF0#8), (1, 0x3C#8)]) 0x8012 (fun t => t.reg 0 == 0x30#8 && t.reg 0xF == 0xAA#8) = true := by
  decide
theorem test_xorReg : steps (withRegs [(0xF, 0xAA#8), (0, 0xFF#8), (1, 0x0F#8)]) 0x8013 (fun t => t.reg 0 == 0xF0#8 && t.reg 0xF == 0xAA#8) = true := by
  decide
/-- V-ALU-8, V-ALU-9. -/
theorem test_addReg :
    steps (withRegs [(0, 0x05#8), (1, 0xFE#8)]) 0x8014 (fun t => t.reg 0 == 3#8 && t.reg 0xF == 1#8) = true ∧
      steps (withRegs [(0, 0x80#8), (1, 0x7F#8)]) 0x8014 (fun t => t.reg 0 == 0xFF#8 && t.reg 0xF == 0#8) = true := by decide
/-- V-ALU-30, V-ALU-31: `VF` as destination, and as source. -/
theorem test_addReg_vf :
    steps (withRegs [(0xF, 0xF0#8), (1, 0x20#8)]) 0x8F14 (fun t => t.reg 0xF == 0x10#8) = true ∧
      steps (withRegs [(1, 0x05#8), (0xF, 0xFE#8)]) 0x81F4 (fun t => t.reg 1 == 3#8 && t.reg 0xF == 1#8) = true := by decide
/-- V-ALU-14, V-ALU-15. -/
theorem test_subReg :
    steps (withRegs [(0, 3#8), (1, 5#8)]) 0x8015 (fun t => t.reg 0 == 0xFE#8 && t.reg 0xF == 0#8) = true ∧
      steps (withRegs [(0, 7#8), (1, 7#8)]) 0x8015 (fun t => t.reg 0 == 0#8 && t.reg 0xF == 1#8) = true := by decide
/-- V-ALU-18, V-ALU-21. -/
theorem test_subnReg :
    steps (withRegs [(0, 3#8), (1, 5#8)]) 0x8017 (fun t => t.reg 0 == 2#8 && t.reg 0xF == 1#8) = true ∧
      steps (withRegs [(0, 0xFF#8), (1, 0#8)]) 0x8017 (fun t => t.reg 0 == 1#8 && t.reg 0xF == 0#8) = true := by decide
/-- V-ALU-22, V-ALU-35. -/
theorem test_shr :
    steps (withRegs [(0, 3#8), (1, 0x55#8)]) 0x8016 (fun t => t.reg 0 == 1#8 && t.reg 0xF == 1#8 && t.reg 1 == 0x55#8) = true ∧
      steps (withRegs [(0xF, 2#8)]) 0x8F06 (fun t => t.reg 0xF == 1#8) = true := by decide
/-- V-ALU-27, V-ALU-28. -/
theorem test_shl :
    steps (withRegs [(0, 0x81#8), (1, 0x55#8)]) 0x801E (fun t => t.reg 0 == 2#8 && t.reg 0xF == 1#8 && t.reg 1 == 0x55#8) = true ∧
      steps (withRegs [(0, 0x40#8)]) 0x801E (fun t => t.reg 0 == 0x80#8 && t.reg 0xF == 0#8) = true := by decide
/-- V-ALU-43, V-ALU-45. -/
theorem test_rnd :
    steps (State.reset.supplyRnd 0xA7#8) 0xC30F (fun t => t.reg 3 == 7#8) = true ∧
      steps (State.reset.supplyRnd 0x5A#8) 0xC3FF (fun t => t.reg 3 == 0x5A#8 && t.rnd == none) = true := by decide

/-- V-DRW-0. -/
theorem test_cls :
    steps (withPixel (withPixel (withRegs [(0xF, 7#8)]) 63 31) 10 5) 0x00E0
      (fun t => !(t.pixel 63 31) && !(t.pixel 10 5) && t.reg 0xF == 7#8) = true := by decide
/-- V-DRW-3 and V-DRW-4: clipped at the right and at the bottom, not wrapped. -/
theorem test_drw_clips :
    steps (withBytes (withRegs [(0, 62#8)]) 0x300 [0xFF#8]) 0xD011
      (fun t => t.pixel 62 0 && t.pixel 63 0 && !(t.pixel 0 0) && !(t.pixel 61 0) && t.reg 0xF == 0#8) = true ∧
      steps (withBytes (withRegs [(1, 31#8)]) 0x300 [0xFF#8, 0x81#8]) 0xD012
        (fun t => t.pixel 0 31 && t.pixel 7 31 && !(t.pixel 0 0) && !(t.pixel 8 31)) = true := by decide
/-- V-DRW-8 and V-DRW-16: a collision, and a clipped row whose byte is out of memory. -/
theorem test_drw_collision_and_fault :
    steps (withBytes (withPixel State.reset 1 0) 0x300 [0xC0#8]) 0xD011
      (fun t => t.pixel 0 0 && !(t.pixel 1 0) && t.reg 0xF == 1#8) = true ∧
      faults ((withRegs [(1, 31#8)]).setIdx 0xFFF#16) 0xD012 (.indexOutOfBounds 4096) = true := by decide

/-- V-KT-1, V-KT-3. -/
theorem test_skp :
    steps ((withRegs [(3, 5#8)]).setKeys 0x0020#16) 0xE39E (fun t => t.pc == 0x204#16) = true ∧
      steps ((withRegs [(3, 0x1A#8)]).setKeys 0x0400#16) 0xE39E (fun t => t.pc == 0x204#16) = true := by decide
/-- V-KT-4. -/
theorem test_sknp :
    steps (withRegs [(3, 5#8)]) 0xE3A1 (fun t => t.pc == 0x204#16) = true ∧
      steps ((withRegs [(3, 0xF5#8)]).setKeys 0x0020#16) 0xE3A1 (fun t => t.pc == 0x202#16) = true := by decide
/-- V-KT-8. -/
theorem test_ldVxDt : steps (State.reset.setDt 5#8) 0xF107 (fun t => t.reg 1 == 5#8 && t.dt == 4#8) = true := by decide
/-- V-KT-5, V-KT-6. -/
theorem test_ldDtVx :
    steps (withRegs [(0, 0x0A#8)]) 0xF015 (fun t => t.dt == 9#8) = true ∧
      steps (withRegs [(0, 0#8)]) 0xF015 (fun t => t.dt == 0#8) = true := by decide
/-- V-KT-7. -/
theorem test_ldStVx :
    steps (withRegs [(2, 1#8)]) 0xF218 (fun t => t.st == 0#8) = true ∧
      steps (withRegs [(2, 0xFF#8)]) 0xF218 (fun t => t.st == 0xFE#8) = true := by decide
/-- V-KT-9, V-KT-11. -/
theorem test_ldVxK :
    steps ((State.reset.setDt 1#8).setSt 2#8) 0xF50A (fun t => t.pc == 0x200#16 && t.dt == 0#8 && t.st == 1#8) = true ∧
      steps (State.reset.setKeys 0x0088#16) 0xF10A (fun t => t.reg 1 == 3#8 && t.pc == 0x202#16) = true := by decide

/-- V-IM-1. -/
theorem test_ldI : steps State.reset 0xAFFF (fun t => t.idx == 0x0FFF#16) = true := by decide
/-- V-IM-4, V-IM-5. -/
theorem test_addI :
    steps ((withRegs [(2, 1#8)]).setIdx 0x0FFF#16) 0xF21E (fun t => t.idx == 0x1000#16) = true ∧
      steps ((withRegs [(2, 2#8)]).setIdx 0xFFFF#16) 0xF21E (fun t => t.idx == 0x0001#16) = true := by decide
/-- V-IM-7, V-IM-10. -/
theorem test_ldF :
    steps (withRegs [(0, 0x0A#8)]) 0xF029 (fun t => t.idx == 0x0082#16) = true ∧
      steps (withRegs [(0, 0xFF#8)]) 0xF029 (fun t => t.idx == 0x054B#16) = true := by decide
/-- V-IM-11, V-IM-13. -/
theorem test_ldB :
    steps ((withRegs [(0, 199#8)]).setIdx 0x300#16) 0xF033
      (fun t => t.byteAt 0x300 == 1#8 && t.byteAt 0x301 == 9#8 && t.byteAt 0x302 == 9#8) = true ∧
      faults (State.reset.setIdx 0xFFE#16) 0xF033 (.indexOutOfBounds 4096) = true := by decide
/-- V-IM-14, V-IM-21. -/
theorem test_ldMemVx :
    steps ((withRegs [(0, 1#8), (1, 2#8), (2, 3#8), (3, 4#8)]).setIdx 0x300#16) 0xF255
      (fun t => t.byteAt 0x300 == 1#8 && t.byteAt 0x301 == 2#8 && t.byteAt 0x302 == 3#8 && t.byteAt 0x303 == 0#8 &&
        t.idx == 0x300#16) = true ∧
      steps (State.reset.setIdx 0x050#16) 0xF055 (fun t => t.byteAt 0x050 == 0#8) = true := by decide
/-- V-IM-18, V-IM-20. -/
theorem test_ldVxMem :
    steps (withBytes (withRegs [(3, 0xEE#8)]) 0x300 [9#8, 8#8, 7#8, 6#8]) 0xF265
      (fun t => t.reg 0 == 9#8 && t.reg 1 == 8#8 && t.reg 2 == 7#8 && t.reg 3 == 0xEE#8 && t.idx == 0x300#16) = true ∧
      steps (State.reset.setIdx 0x050#16) 0xF465 (fun t => t.reg 0 == 0xF0#8 && t.reg 1 == 0x90#8 && t.reg 4 == 0xF0#8) = true := by
  decide

/-! ## Witnesses: the hypotheses of each statement can be met -/

/-- The reset state with a word placed where the next step fetches. -/
def atWord (s : State) (w : Nat) : State := s.withFetchWord 16 w

/-- The session after `Reset`. -/
def startSession : Session := Session.start defaultParams

/-- A session whose core has faulted. -/
def faultedSession : Session := ⟨State.reset.afterFault State.reset .stackUnderflow, .running⟩

theorem inv_reset : State.reset.Inv := ⟨rfl, by decide, by decide, by decide⟩

theorem witness_EncodeOfDecodeIsIdentity : decodeWord 0xFFFE#16 = none ∧ decodeWord 0xFF65#16 = some (.ldVxMem 15) := by
  decide
theorem witness_DispatchAgreesWithOpcodeMap :
    decodeWord 0x0000#16 = some (.cls 0#8) ∧
      opcodeRows[0]? = some ⟨0xF00F, 0x0000⟩ ∧ (⟨0xF00F, 0x0000⟩ : OpcodeRow).hits 0x0000#16 = true ∧
      opcodeRows[33]? = some ⟨0xF0FF, 0xF065⟩ ∧ (⟨0xF0FF, 0xF065⟩ : OpcodeRow).hits 0xFF65#16 = true := by decide
theorem witness_IgnoredBitsChangeNothing :
    0x0000#16 &&& examinedMask 0x0000#16 = 0x0FF0#16 &&& examinedMask 0x0FF0#16 ∧
      0x8126#16 &&& examinedMask 0x8126#16 = 0x81F6#16 &&& examinedMask 0x81F6#16 := by decide

theorem witness_StepRunsDecodedInstruction_faulted : ∃ s : State, s.fault = some .stackUnderflow :=
  ⟨faultedSession.core, rfl⟩
theorem witness_StepRunsDecodedInstruction_bound :
    ∃ s : State, s.fault = none ∧ 0xFFE < s.pc.toNat := ⟨State.reset.setPc 0xFFF#16, rfl, by decide⟩
theorem witness_StepRunsDecodedInstruction_mapped :
    ∃ s : State, s.canFetch ∧ s.pc.toNat = 0xFFE ∧
      decode [s.byteAt s.pc.toNat, s.byteAt (s.pc.toNat + 1)] = .ok (.ldKk 0 7#8, []) :=
  ⟨atWord (State.reset.setPc 0xFFE#16) 0x6007, ⟨rfl, by decide⟩, by decide, rfl⟩
theorem witness_StepRunsDecodedInstruction_unmapped :
    ∃ s : State, s.canFetch ∧
      decode [s.byteAt s.pc.toNat, s.byteAt (s.pc.toNat + 1)] = .error (.unmapped 0x8018#16) :=
  ⟨atWord State.reset 0x8018, ⟨rfl, by decide⟩, rfl⟩
theorem witness_UnmappedWordsAreNoOps :
    ∃ s : State, s.canFetch ∧ decodeWord s.fetchWord = none ∧ s.dt.toNat = 1 ∧ s.st.toNat = 0 :=
  ⟨atWord (State.reset.setDt 1#8) 0xF1FF, ⟨rfl, by decide⟩, by decide, by decide, by decide⟩
theorem witness_TimersTickOncePerStep :
    (∃ s u : State, s.canFetch ∧ runWord s.fetchWord s.fetched = .next u) ∧
      (∃ s : State, s.canFetch ∧ decodeWord s.fetchWord = some (.ldDtVx 15)) ∧
      (∃ s : State, s.canFetch ∧ decodeWord s.fetchWord = some (.ldStVx 0)) ∧
      (∃ s : State, s.canFetch ∧ decodeWord s.fetchWord = some (.ldVxDt 15)) ∧
      (∃ s : State, s.canFetch ∧ decodeWord s.fetchWord = some (.ldVxK 0) ∧ ∀ k < 16, s.key k = false) ∧
      ∃ s : State, s.canFetch ∧ decodeWord s.fetchWord = none :=
  ⟨⟨atWord State.reset 0x1200, _, ⟨rfl, by decide⟩, rfl⟩,
    ⟨atWord State.reset 0xFF15, ⟨rfl, by decide⟩, by decide⟩, ⟨atWord State.reset 0xF018, ⟨rfl, by decide⟩, by decide⟩,
    ⟨atWord State.reset 0xFF07, ⟨rfl, by decide⟩, by decide⟩,
    ⟨atWord State.reset 0xF00A, ⟨rfl, by decide⟩, by decide, by decide⟩,
    ⟨atWord State.reset 0x0001, ⟨rfl, by decide⟩, by decide⟩⟩
/-- Each of the four faults occurs, at the edge of its condition; and a core with no fault. -/
theorem witness_StepFaultsExactlyWhereListed :
    State.reset.fault = none ∧
      step (State.reset.setPc 0xFFF#16) = .fault (.fetchOutOfBounds 0xFFF#16) ∧
      step (atWord { State.reset with sp := 16 } 0x2300) = .fault .stackOverflow ∧
      step (atWord State.reset 0x000E) = .fault .stackUnderflow ∧
      step (atWord (State.reset.setIdx 0xFFF#16) 0xF155) = .fault (.indexOutOfBounds 4096) ∧
      step (atWord (State.reset.setIdx 0xFFFF#16) 0xD001) = .fault (.indexOutOfBounds 65535) :=
  ⟨rfl, rfl, rfl, rfl, rfl, rfl⟩
theorem witness_StepKeepsInvariant : ∃ s t : State, s.Inv ∧ step s = .next t := ⟨State.reset, _, inv_reset, rfl⟩
/-- The five operations, `Step` with a next state, and a `Reset` of a faulted core. -/
theorem witness_HostOperationsKeepInvariant :
    (startSession.core.fault = none → startSession.core.Inv) ∧
      (∀ op ∈ [HostOp.reset, .load [0x12#8, 0x00#8], .setKeys 0xFFFF#16, .step 0x5A#8, .inspect],
        ∃ c, Session.apply State.reset op startSession = .ok c ∧ c.core.fault = none) ∧
      (faultedSession.core.fault = none → faultedSession.core.Inv) ∧
      ∃ c, Session.apply State.reset .reset faultedSession = .ok c ∧ c.core.fault = none := by
  refine ⟨fun _ => inv_reset, ?_, (fun h => nomatch h), ⟨_, rfl, rfl⟩⟩
  intro op h
  simp only [List.mem_cons, List.not_mem_nil, or_false] at h
  rcases h with rfl | rfl | rfl | rfl | rfl <;> exact ⟨_, rfl, rfl⟩

theorem witness_LoadCopiesTheImage :
    (∃ image : List Byte, 3584 < image.length) ∧
      (∃ (image : List Byte) (c : Session), image.length ≤ 3584 ∧ c.phase ≠ .constructed) ∧
      ∃ (image : List Byte) (c : Session), image.length ≤ 3584 ∧ c.phase = .constructed ∧
        Memory.wf c.core.params c.core.mem = true :=
  ⟨⟨List.replicate 3585 0#8, by rw [List.length_replicate]; omega⟩,
    ⟨[], ⟨State.reset, .loaded⟩, by decide, by decide⟩,
    ⟨List.replicate 3584 0x12#8, startSession, by rw [List.length_replicate], rfl, rfl⟩⟩
theorem witness_OnlyResetLeavesAFault :
    (∃ (c : Session) (r : Byte) (t : State), step { c.core with rnd := some r } = .next t) ∧
      (∃ (c : Session) (r : Byte), step { c.core with rnd := some r } = .fault (.fetchOutOfBounds 0xFFFF#16)) ∧
      ∃ (c c' : Session), c.core.fault ≠ none ∧ Session.apply State.reset .reset c = .ok c' ∧ c'.core.fault = none :=
  ⟨⟨startSession, 0xFF#8, _, rfl⟩, ⟨⟨State.reset.setPc 0xFFFF#16, .running⟩, 0#8, rfl⟩,
    ⟨faultedSession, _, by decide, rfl, rfl⟩⟩
theorem witness_SignalStepIsAHostStep :
    ∃ (b : Block) (ps : List Pins), b.running = none ∧ b.faulted = false ∧ ps.length = 2 ∧ (∀ p ∈ ps, p.rst = false) :=
  ⟨⟨startSession, none⟩, [Pins.writeKeys 1#16, Pins.stepWith 0#8], rfl, rfl, rfl, by decide⟩
theorem witness_SignalRequestsAreHostOperations :
    (∃ (b : Block) (image : List Byte), b.running = none ∧ b.session.phase = .constructed ∧ image.length = 3584) ∧
      (∃ b : Block, b.running = none ∧ b.session.phase ≠ .running) ∧
      ∃ b : Block, b.running = none ∧ b.session.phase = .running :=
  ⟨⟨⟨startSession, none⟩, List.replicate 3584 0#8, rfl, rfl, List.length_replicate⟩,
    ⟨⟨startSession, none⟩, rfl, by decide⟩, ⟨⟨faultedSession, none⟩, rfl, rfl⟩⟩
/-- R36: after the first step `ld_en` is not accepted, so a step on the same edge stands alone and is accepted. -/
theorem test_signal_step_with_late_load :
    (match Block.edge 1 State.reset { Pins.loadByte 0x200#12 0xFF#8 with step := true, rnd := 0x5A#8 }
        ⟨⟨State.reset, .running⟩, none⟩ with
      | .ok d => d.busy && d.session.core.byteAt 0x200 == 0#8
      | .error _ => false) = true := by decide
/-- R36: the read port, here of `M[0x050]` (R48), `pc` and the fault. -/
theorem test_signal_read_port :
    Block.inspData ⟨startSession, none⟩ (.mem 0x050#12) = .byte 0xF0#8 ∧
      Block.inspData ⟨startSession, none⟩ .pc = .word 0x0200#16 ∧
      Block.inspData ⟨faultedSession, none⟩ .fault = .fault (some .stackUnderflow) := by decide
theorem witness_ReadPortsShowTheWholeState :
    ∃ b c : Block, b ≠ c ∧ (∀ sel, c.inspData sel = b.inspData sel) ∧ (∀ x y, c.fbRdData x y = b.fbRdData x y) ∧
      b.inspData .fault = .fault none :=
  ⟨⟨startSession, none⟩, ⟨startSession, some ⟨0#8, 0⟩⟩, by decide, fun _ => rfl, fun _ _ => rfl, rfl⟩

/-- `6005` meets every hypothesis of the statement together: it is none of the instructions named there. -/
theorem witness_OnlyNamedInstructionsWrite :
    ∃ (i : Instr) (s t : State), exec i s = .next t ∧ writesReg i 14 = false ∧
      (∀ ign, i ≠ .ret ign) ∧ (∀ nnn, i ≠ .call nnn) ∧ (∀ ign, i ≠ .cls ign) ∧ (∀ x y n, i ≠ .drw x y n) ∧
      (∀ x, i ≠ .ldB x) ∧ (∀ x, i ≠ .ldMemVx x) ∧ (∀ nnn, i ≠ .ldI nnn) ∧ (∀ x, i ≠ .addI x) ∧ (∀ x, i ≠ .ldF x) ∧
      (∀ x, i ≠ .ldDtVx x) ∧ (∀ x, i ≠ .ldStVx x) ∧ (∀ a, i ≠ .jp a) ∧ (∀ a, i ≠ .jpV0 a) ∧
      (∀ x a, i ≠ .seKk x a) ∧ (∀ x a, i ≠ .sneKk x a) ∧ (∀ x y a, i ≠ .seReg x y a) ∧
      (∀ x y a, i ≠ .sneReg x y a) ∧ (∀ x a, i ≠ .skp x a) ∧ (∀ x a, i ≠ .sknp x a) ∧ ∀ x, i ≠ .ldVxK x :=
  ⟨.ldKk 15 5#8, State.reset, _, rfl, by decide, by simp⟩
theorem witness_FlagRegisterHoldsTheFlag :
    ((14 : RegNum) ≠ vf ∧ (∃ t, exec (.addReg 14 0) State.reset = .next t) ∧
        (∃ t, exec (.subReg 14 0) State.reset = .next t) ∧ (∃ t, exec (.subnReg 14 0) State.reset = .next t) ∧
        (∃ t, exec (.shr 14 0) State.reset = .next t) ∧ ∃ t, exec (.shl 14 0) State.reset = .next t) ∧
      ((∃ t, exec (.addReg vf vf) State.reset = .next t) ∧ (∃ t, exec (.subReg vf 0) State.reset = .next t) ∧
        (∃ t, exec (.subnReg vf 0) State.reset = .next t) ∧ (∃ t, exec (.shr vf 0) State.reset = .next t) ∧
        ∃ t, exec (.shl vf 0) State.reset = .next t) ∧
      (∃ t, exec (.drw 0 0 15) State.reset = .next t) ∧
      (writesReg (.addKk 14 1#8) vf = false ∧ ∃ t, exec (.addKk 14 1#8) State.reset = .next t) :=
  ⟨⟨by decide, ⟨_, rfl⟩, ⟨_, rfl⟩, ⟨_, rfl⟩, ⟨_, rfl⟩, ⟨_, rfl⟩⟩, ⟨⟨_, rfl⟩, ⟨_, rfl⟩, ⟨_, rfl⟩, ⟨_, rfl⟩, ⟨_, rfl⟩⟩,
    ⟨_, rfl⟩, ⟨by decide, ⟨_, rfl⟩⟩⟩
theorem witness_UnreadRegisterHasNoInfluence :
    readsReg (.drw 0 1 15) vf = false ∧ readsReg (.ldMemVx 14) 15 = false ∧ readsReg (.ldVxMem 15) 0 = false := by decide
theorem witness_OnlyRandomReadsTheRandomByte : ∃ i : Instr, ∀ x kk, i ≠ .rnd x kk := ⟨.cls 0#8, by simp⟩
theorem witness_SoundTimerDecidesNothing :
    (∃ i : Instr, ∀ x, i ≠ .ldStVx x) ∧ ∃ (i : Instr) (x : RegNum), i = .ldStVx x :=
  ⟨⟨.ldDtVx 0, by simp⟩, ⟨_, 15, rfl⟩⟩
/-- Every one of the eight instructions has a next state, at the edge of the stack for the return and the call. -/
theorem witness_ControlFlowTouchesNoMemory :
    (∃ t, exec (.ret 0#8) { State.reset with sp := 16 } = .next t) ∧ (∃ t, exec (.call 0#12) State.reset = .next t) ∧
      (∃ t, exec (.jp 0xFFF#12) State.reset = .next t) ∧ (∃ t, exec (.jpV0 0xFFF#12) State.reset = .next t) ∧
      (∃ t, exec (.seKk 0 0#8) State.reset = .next t) ∧ (∃ t, exec (.sneKk 0 0#8) State.reset = .next t) ∧
      (∃ t, exec (.seReg 0 15 0#4) State.reset = .next t) ∧ ∃ t, exec (.sneReg 15 0 0#4) State.reset = .next t :=
  ⟨⟨_, rfl⟩, ⟨_, rfl⟩, ⟨_, rfl⟩, ⟨_, rfl⟩, ⟨_, rfl⟩, ⟨_, rfl⟩, ⟨_, rfl⟩, ⟨_, rfl⟩⟩

theorem witness_ReturnPopsTheStack :
    (∃ s : State, s.sp.val = 0) ∧ (∃ s : State, s.sp.val = (0 : Fin 16).val + 1 ∧ s.Inv ∧ s.stackAt 0 = 0x1000#16) ∧
      ∃ s : State, s.sp.val = (15 : Fin 16).val + 1 :=
  ⟨⟨State.reset, rfl⟩,
    ⟨{ State.reset with sp := 1, stack := State.reset.stack.set 0 0x1000#16 }, rfl,
      ⟨rfl, by decide, by decide, by decide⟩, by decide⟩,
    ⟨{ State.reset with sp := 16 }, rfl⟩⟩
theorem witness_JumpSetsPc : ∃ s : State, s.fault = none := ⟨State.reset, rfl⟩
theorem witness_CallPushesTheReturnAddress :
    (∃ s : State, s.sp.val = 16) ∧ (∃ s : State, s.sp.val = (0 : Fin 16).val) ∧ ∃ s : State, s.sp.val = (15 : Fin 16).val :=
  ⟨⟨{ State.reset with sp := 16 }, rfl⟩, ⟨State.reset, rfl⟩, ⟨{ State.reset with sp := 15 }, rfl⟩⟩
theorem witness_ReturnResumesAfterCall :
    ∃ s t u : State, exec (.call 0x300#12) s = .next t ∧ u.sp = t.sp ∧ (∀ k : Fin 16, u.stackAt k = t.stackAt k) ∧
      u.pc ≠ t.pc :=
  ⟨{ State.reset with sp := 15 }, _, State.setPc { State.reset with sp := 16, stack := State.reset.stack.set 15 0x200#16 }
    0x20C#16, rfl, rfl, by decide, by decide⟩
theorem witness_StackFaultsAtTheStep :
    (∃ s : State, s.canFetch ∧ s.sp.val = 16 ∧ decodeWord s.fetchWord = some (.call 0xFFF#12)) ∧
      ∃ s : State, s.canFetch ∧ s.sp.val = 0 ∧ opField s.fetchWord = 0x0#4 ∧ subField s.fetchWord = 0xE#4 :=
  ⟨⟨atWord { State.reset with sp := 16 } 0x2FFF, ⟨rfl, by decide⟩, rfl, by decide⟩,
    ⟨atWord State.reset 0x000E, ⟨rfl, by decide⟩, rfl, by decide, by decide⟩⟩
theorem witness_ImmediateSkips :
    (∃ s : State, s.canFetch ∧ s.pc.toNat = 0xFFE ∧ decodeWord s.fetchWord = some (.seKk 15 0xFF#8)) ∧
      ∃ s : State, s.canFetch ∧ decodeWord s.fetchWord = some (.sneKk 0 0x00#8) :=
  ⟨⟨atWord (State.reset.setPc 0xFFE#16) 0x3FFF, ⟨rfl, by decide⟩, by decide, by decide⟩,
    ⟨atWord State.reset 0x4000, ⟨rfl, by decide⟩, by decide⟩⟩
theorem witness_RegisterSkips :
    (∃ s : State, s.canFetch ∧ s.pc.toNat = 0xFFE ∧ decodeWord s.fetchWord = some (.seReg 15 15 0xF#4)) ∧
      ∃ s : State, s.canFetch ∧ decodeWord s.fetchWord = some (.sneReg 0 15 0x0#4) :=
  ⟨⟨atWord (State.reset.setPc 0xFFE#16) 0x5FFF, ⟨rfl, by decide⟩, by decide, by decide⟩,
    ⟨atWord State.reset 0x90F0, ⟨rfl, by decide⟩, by decide⟩⟩
theorem witness_AddSetsCarry_and_ShiftsMoveOneBitOut : (14 : RegNum) ≠ vf ∧ (0 : RegNum) ≠ vf := by decide
theorem witness_SubtractsSetNotBorrow :
    (∃ s : State, (s.reg 1).toNat ≤ (s.reg 0).toNat ∧ s.reg 0 = s.reg 1) ∧
      (∃ s : State, (s.reg 0).toNat < (s.reg 1).toNat ∧ s.reg 1 = 0xFF#8) ∧ (14 : RegNum) ≠ vf :=
  ⟨⟨State.reset, by decide, by decide⟩, ⟨withRegs [(1, 0xFF#8)], by decide, by decide⟩, by decide⟩
theorem witness_RandomUnderMask :
    (∃ s : State, s.rnd = some 0xFF#8) ∧ (0x7F#8).getLsbD 7 = false ∧ (0xFE#8).getLsbD 0 = false :=
  ⟨⟨State.reset.supplyRnd 0xFF#8, rfl⟩, by decide, by decide⟩
theorem witness_DrawTogglesAndReportsCollision :
    (∃ (s : State) (n : Fin 16), n.val ≠ 0 ∧ s.idx.toNat + n.val = 4097) ∧
      (∃ (s : State) (n : Fin 16), n.val = 0 ∧ s.idx.toNat = 65535) ∧
      ∃ (s : State) (n : Fin 16), n.val ≠ 0 ∧ s.idx.toNat + n.val = 4096 :=
  ⟨⟨State.reset.setIdx 0xFFF#16, 2, by decide, by decide⟩, ⟨State.reset.setIdx 0xFFFF#16, 0, by decide, by decide⟩,
    ⟨State.reset.setIdx 0xFFF#16, 1, by decide, by decide⟩⟩
/-- The draw of a cell at the corner of a clear frame, and the state it leaves drawn into again. -/
theorem witness_DrawTwiceRestores :
    ∃ s t : State, exec (.drw 0 1 1) s = .next t ∧ t.reg 0 = s.reg 0 ∧ t.reg 1 = s.reg 1 ∧ t.idx = s.idx ∧
      (∀ k < 1, t.byteAt (s.idx.toNat + k) = s.byteAt (s.idx.toNat + k)) ∧ s.spriteLands 0 1 1 63 31 = true ∧
      s.pixel 63 31 = false :=
  ⟨withBytes (withRegs [(0, 63#8), (1, 31#8)]) 0x300 [0x80#8], _, rfl, by decide, by decide, by decide, by decide,
    by decide, by decide⟩
theorem witness_KeySkips :
    (∃ s : State, s.canFetch ∧ s.pc.toNat = 0xFFE ∧ decodeWord s.fetchWord = some (.skp 15 0x9#4) ∧
      s.key ((s.reg 15).toNat % 16) = true ∧ s.reg 15 = 0xFF#8) ∧
      ∃ s : State, s.canFetch ∧ decodeWord s.fetchWord = some (.sknp 0 0xA#4) :=
  ⟨⟨atWord (((withRegs [(15, 0xFF#8)]).setKeys 0x8000#16).setPc 0xFFE#16) 0xEF9E, ⟨rfl, by decide⟩, by decide, by decide,
      by decide, by decide⟩,
    ⟨atWord State.reset 0xE0A1, ⟨rfl, by decide⟩, by decide⟩⟩
theorem witness_TimerInstructions :
    (∃ s : State, s.canFetch ∧ decodeWord s.fetchWord = some (.ldVxDt 0) ∧ s.dt = 0xFF#8) ∧
      (∃ s : State, s.canFetch ∧ decodeWord s.fetchWord = some (.ldDtVx 15) ∧ s.reg 15 = 0xFF#8) ∧
      ∃ s : State, s.canFetch ∧ decodeWord s.fetchWord = some (.ldStVx 15) ∧ s.reg 15 = 0x00#8 :=
  ⟨⟨atWord (State.reset.setDt 0xFF#8) 0xF007, ⟨rfl, by decide⟩, by decide, by decide⟩,
    ⟨atWord (withRegs [(15, 0xFF#8)]) 0xFF15, ⟨rfl, by decide⟩, by decide, by decide⟩,
    ⟨atWord State.reset 0xFF18, ⟨rfl, by decide⟩, by decide, by decide⟩⟩
theorem witness_WaitForKey :
    (∃ s : State, s.key 15 = true ∧ ∀ j < 15, s.key j = false) ∧ (∃ s : State, s.key 0 = true ∧ s.key 15 = true) ∧
      ∃ s : State, s.canFetch ∧ s.pc.toNat = 0xFFE ∧ decodeWord s.fetchWord = some (.ldVxK 15) ∧ ∀ k < 16, s.key k = false :=
  ⟨⟨State.reset.setKeys 0x8000#16, by decide, by decide⟩, ⟨State.reset.setKeys 0xFFFF#16, by decide, by decide⟩,
    ⟨atWord (State.reset.setPc 0xFFE#16) 0xFF0A, ⟨rfl, by decide⟩, by decide, by decide, by decide⟩⟩
theorem witness_BcdStoresThreeDigits :
    (∃ s : State, s.idx.toNat = 4094) ∧ ∃ s : State, s.idx.toNat = 4093 ∧ Memory.wf s.params s.mem = true :=
  ⟨⟨State.reset.setIdx 0xFFE#16, by decide⟩, ⟨State.reset.setIdx 0xFFD#16, by decide, by decide⟩⟩
theorem witness_StoreRegisters :
    (∃ s : State, s.idx.toNat + (15 : RegNum).val = 4096) ∧
      ∃ s : State, s.idx.toNat + (15 : RegNum).val = 4095 ∧ Memory.wf s.params s.mem = true :=
  ⟨⟨State.reset.setIdx 0xFF1#16, by decide⟩, ⟨State.reset.setIdx 0xFF0#16, by decide, by decide⟩⟩
theorem witness_LoadRegisters :
    (∃ s : State, s.idx.toNat + (0 : RegNum).val = 4096) ∧ (∃ s : State, s.idx.toNat + (0 : RegNum).val = 4095) ∧
      ((0 : RegNum) ≤ 0 ∧ (14 : RegNum) < 15) :=
  ⟨⟨State.reset.setIdx 0x1000#16, by decide⟩, ⟨State.reset.setIdx 0xFFF#16, by decide⟩, by decide⟩
theorem witness_StoreThenLoadRestores :
    ∃ s t : State, Memory.wf s.params s.mem = true ∧ exec (.ldMemVx 3) s = .next t ∧ t.idx = s.idx :=
  ⟨(withRegs [(0, 0x11#8), (1, 0x22#8), (2, 0x33#8), (3, 0x44#8)]).setIdx 0xFFC#16, _, by decide, rfl, by decide⟩
theorem witness_IndexFaultsExactlyOutOfRange :
    exec (.ldB 0) (State.reset.setIdx 0xFFE#16) = .fault (.indexOutOfBounds 4096) ∧
      exec (.drw 0 0 2) (State.reset.setIdx 0xFFF#16) = .fault (.indexOutOfBounds 4096) ∧
      exec (.ldMemVx 15) (State.reset.setIdx 0xFF1#16) = .fault (.indexOutOfBounds 4096) ∧
      exec (.ldVxMem 0) (State.reset.setIdx 0x1001#16) = .fault (.indexOutOfBounds 4097) := ⟨rfl, rfl, rfl, rfl⟩
theorem witness_StoredCodeIsFetched :
    ∃ s t : State, Memory.wf s.params s.mem = true ∧ 1 ≤ (1 : RegNum).val ∧ s.idx.toNat = 0xFFE ∧
      exec (.ldMemVx 1) s = .next t :=
  ⟨(withRegs [(0, 0x12#8), (1, 0x08#8)]).setIdx 0xFFE#16, _, by decide, by decide, by decide, rfl⟩

end Sys2Proof.Tests
end

section
/-! What a step answers once its handler has answered a state (R80), and the timers that leaves (R84). -/

namespace Sys2Proof.Machine

variable {s u : State} {i : Instr}

theorem runWord_of_mapped {w : Word} (hd : decodeWord w = some i) : runWord w s = exec i s := by
  simp [runWord, hd]

theorem runWord_of_unmapped {w : Word} (hd : decodeWord w = none) : runWord w s = .next s := by
  simp [runWord, hd, execNop]

/-- The step is the handler's state, ended: the one place where the tick enters a proof about steps (R80, R84). -/
theorem step_of_runWord_next (hs : s.canFetch) (hu : runWord s.fetchWord s.fetched = .next u) :
    step s = .next u.endStep := by
  obtain ⟨hfault, hpc⟩ := hs
  rw [step_of_fetch hfault (s.fetchInBounds_iff.mpr hpc), hu, finish]

theorem step_of_exec_next (hs : s.canFetch) (hd : decodeWord s.fetchWord = some i)
    (hu : exec i s.fetched = .next u) : step s = .next u.endStep :=
  step_of_runWord_next hs ((runWord_of_mapped hd).trans hu)

theorem step_of_unmapped (hs : s.canFetch) (hd : decodeWord s.fetchWord = none) :
    step s = .next s.fetched.endStep :=
  step_of_runWord_next hs (runWord_of_unmapped hd)

theorem State.endStep_dt_toNat (s : State) : s.endStep.dt.toNat = s.dt.toNat - 1 := tickDown_toNat s.dt

theorem State.endStep_st_toNat (s : State) : s.endStep.st.toNat = s.st.toNat - 1 := tickDown_toNat s.st

/-- A wait that finds no key pressed goes back to its own address and does nothing else (R133). -/
theorem exec_ldVxK_fetched_of_noKey {x : RegNum} (hk : ∀ k < 16, s.key k = false) :
    exec (.ldVxK x) s.fetched = .next s.fetched.rollBack :=
  exec_ldVxK_of_none (s.fetched.firstKey_none.mpr hk)

/-- Settles O9: the step is the handler's state, ended, and the end of a step changes only the timers and the random
input; each consequence is this with the state one handler leaves. -/
theorem timersTickOncePerStep : Obligations.TimersTickOncePerStep := by
  unfold Obligations.TimersTickOncePerStep
  refine ⟨fun s u hs hu => ?whole, fun s x hs hd => ?ldDtVx, fun s x hs hd => ?ldStVx, fun s x hs hd => ?ldVxDt,
    fun s x hs hd hk => ?wait, fun s hs hd => ?unmapped⟩
  case whole =>
    exact ⟨_, step_of_runWord_next hs hu, u.endStep_dt_toNat, u.endStep_st_toNat, u.reg_endStep, rfl, rfl,
      ⟨rfl, fun _ => rfl⟩, fun _ _ => rfl, u.byteAt_endStep, rfl, rfl, rfl, rfl⟩
  case ldDtVx =>
    exact ⟨_, step_of_exec_next hs hd rfl, State.endStep_dt_toNat _, State.endStep_st_toNat _⟩
  case ldStVx =>
    exact ⟨_, step_of_exec_next hs hd rfl, State.endStep_st_toNat _, State.endStep_dt_toNat _⟩
  case ldVxDt =>
    exact ⟨_, step_of_exec_next hs hd rfl, s.fetched.reg_setReg_same x s.dt, State.endStep_dt_toNat _,
      State.endStep_st_toNat _⟩
  case wait =>
    exact ⟨_, step_of_exec_next hs hd (exec_ldVxK_fetched_of_noKey hk), State.endStep_dt_toNat _,
      State.endStep_st_toNat _⟩
  case unmapped =>
    exact ⟨_, step_of_unmapped hs hd, State.endStep_dt_toNat _, State.endStep_st_toNat _⟩

end Sys2Proof.Machine
end

section
/-! What the control-flow instructions answer, one rule for each shape they have: a jump or a skip sets `pc`, a call saves
an entry of the call stack, and a fetch outside memory faults (spec/41, R90 to R98; R45, R80). -/

namespace Sys2Proof.Machine

variable {s : State} {i : Instr}

/-! The fetch fault. -/

/-- A fault-free core whose `pc` leaves no room for a word faults at the fetch (R45, R80). -/
theorem step_of_pc_gt (hf : s.fault = none) (hpc : 0xFFE < s.pc.toNat) :
    step s = .fault (.fetchOutOfBounds s.pc) := by
  have hb : s.fetchInBounds ≠ true := fun h => absurd (s.fetchInBounds_iff.mp h) (by omega)
  simp [step, hf, hb, raise]

/-! Skips. -/

/-- An instruction that skips on a condition completes, and changes `pc` alone (R94 to R97). -/
theorem exec_answers_of_skipIf {c : Bool} (he : exec i s = .next (s.skipIf c)) :
    ∃ t, exec i s = .next t ∧ t.pc = (if c then s.pc + 2#16 else s.pc) ∧ OnlyPcMayDiffer s t :=
  ⟨_, he, s.skipIf_pc c, onlyPc_skipIf s c⟩

/-- Where a skip from a fetched word in bounds lands: `pc` wraps neither at the advance nor at the skip (R81, R94). -/
theorem State.skipIf_fetched_pc_toNat (h : s.pc.toNat ≤ 0xFFE) (c : Bool) :
    (s.fetched.skipIf c).pc.toNat = s.pc.toNat + if c then 4 else 2 := by
  have hadv := s.fetched_pc_toNat h
  rw [State.skipIf_pc]
  cases c with
  | false => exact hadv
  | true => simp only [if_true, BitVec.toNat_add, hadv, BitVec.toNat_ofNat]; omega

/-- A step of an instruction that skips on a condition goes 4 bytes on when it holds and 2 when it does not. -/
theorem step_of_skipIf {c : Bool} (hs : s.canFetch) (hd : decodeWord s.fetchWord = some i)
    (he : exec i s.fetched = .next (s.fetched.skipIf c)) :
    ∃ t, step s = .next t ∧ t.pc.toNat = s.pc.toNat + if c then 4 else 2 :=
  ⟨_, step_of_exec_next hs hd he, State.skipIf_fetched_pc_toNat hs.2 c⟩

/-- Naming one register twice is a comparison that holds (R96, R97). -/
theorem State.eq_or_reg_eq_iff (s : State) (x y : RegNum) : (x = y ∨ s.reg x = s.reg y) ↔ s.reg x = s.reg y :=
  or_iff_right_of_imp (congrArg s.reg)

/-! The call. -/

/-- The state with `w` saved as entry `j` of the call stack and the entries up to `j` counted (R15, D14). -/
def State.saveEntry (s : State) (j : Fin 16) (w : Word) : State := { s with stack := s.stack.set j.val w, sp := j.succ }

theorem State.stackAt_saveEntry (s : State) (j k : Fin 16) (w : Word) :
    (s.saveEntry j w).stackAt k = if k = j then w else s.stackAt k := by
  simp only [State.stackAt, State.saveEntry, Fin.getElem_fin, Vector.getElem_set, Fin.ext_iff, eq_comm]

theorem State.stackAt_saveEntry_same (s : State) (j : Fin 16) (w : Word) : (s.saveEntry j w).stackAt j = w := by
  rw [State.stackAt_saveEntry, if_pos rfl]

theorem State.stackAt_saveEntry_other {j k : Fin 16} (w : Word) (h : k ≠ j) :
    (s.saveEntry j w).stackAt k = s.stackAt k := by
  rw [State.stackAt_saveEntry, if_neg h]

/-- A CALL with room on the stack saves the advanced `pc` as the entry `SP` counts to, and jumps (R93). -/
theorem exec_call_of_sp {nnn : BitVec 12} {j : Fin 16} (h : s.sp.val = j.val) :
    exec (.call nnn) s = .next ((s.saveEntry j s.pc).setPc (addr16 nnn)) := by
  rw [exec_call_of_lt (h ▸ j.isLt)]
  simp only [h]
  rfl

/-! Independence of memory. -/

/-- The instruction does the same whatever memory holds, and a state it answers has the same memory and the same
registers (R98). -/
def MakesNoMemoryAccess (i : Instr) : Prop :=
  ∀ (s : State) (m : Memory), exec i (s.setMem m) = mapNext (·.setMem m) (exec i s) ∧
    ∀ t, exec i s = .next t → SameRegs s t ∧ SameMem s t

/-- An instruction that only sets `pc`, to a value memory plays no part in, makes no memory access. -/
theorem makesNoMemoryAccess_of_setPc {target : State → Word} (he : ∀ s, exec i s = .next (s.setPc (target s)))
    (ht : ∀ s m, target (s.setMem m) = target s) : MakesNoMemoryAccess i := by
  intro s m
  rw [he, he, ht]
  refine ⟨rfl, fun t h => ?_⟩
  cases h
  exact ⟨fun _ => rfl, fun _ => rfl⟩

/-- An instruction that only skips, on a condition memory plays no part in, makes no memory access. -/
theorem makesNoMemoryAccess_of_skipIf {c : State → Bool} (he : ∀ s, exec i s = .next (s.skipIf (c s)))
    (hc : ∀ s m, c (s.setMem m) = c s) : MakesNoMemoryAccess i :=
  makesNoMemoryAccess_of_setPc (fun s => (he s).trans (congrArg _ (s.skipIf_eq (c s))))
    fun s m => by rw [hc, State.setMem_pc]

theorem makesNoMemoryAccess_ret (ign : BitVec 8) : MakesNoMemoryAccess (.ret ign) := by
  intro s m
  by_cases h : s.sp.val = 0
  · rw [exec_ret_of_zero h, exec_ret_of_zero (s := s.setMem m) h]
    exact ⟨rfl, fun t ht => by cases ht⟩
  · rw [exec_ret_of_pos h, exec_ret_of_pos (s := s.setMem m) h]
    refine ⟨rfl, fun t ht => ?_⟩
    cases ht
    exact ⟨fun _ => rfl, fun _ => rfl⟩

theorem makesNoMemoryAccess_call (nnn : BitVec 12) : MakesNoMemoryAccess (.call nnn) := by
  intro s m
  by_cases h : s.sp.val = 16
  · rw [exec_call_of_full h, exec_call_of_full (s := s.setMem m) h]
    exact ⟨rfl, fun t ht => by cases ht⟩
  · have hlt : s.sp.val < 16 := by omega
    rw [exec_call_of_lt hlt, exec_call_of_lt (s := s.setMem m) hlt]
    refine ⟨rfl, fun t ht => ?_⟩
    cases ht
    exact ⟨fun _ => rfl, fun _ => rfl⟩

end Sys2Proof.Machine
end

section
/-! The statements about control flow. -/

namespace Sys2Proof.Machine

/-- Settles O26: each of the jumps and skips sets `pc` from what is not memory, and RET and CALL use the call stack
alone. -/
theorem controlFlowTouchesNoMemory : Obligations.ControlFlowTouchesNoMemory := by
  unfold Obligations.ControlFlowTouchesNoMemory
  intro i s m hi
  suffices h : MakesNoMemoryAccess i from h s m
  obtain ⟨ign, rfl⟩ | ⟨nnn, rfl⟩ | ⟨nnn, rfl⟩ | ⟨nnn, rfl⟩ | ⟨x, kk, rfl⟩ | ⟨x, kk, rfl⟩ | ⟨x, y, ign, rfl⟩ |
    ⟨x, y, ign, rfl⟩ := hi
  · exact makesNoMemoryAccess_ret ign
  · exact makesNoMemoryAccess_of_setPc (target := fun _ => addr16 nnn) (fun _ => rfl) fun _ _ => rfl
  · exact makesNoMemoryAccess_of_setPc (target := fun s => addr16 nnn + zext16 (s.reg 0)) (fun _ => rfl) fun _ _ => rfl
  · exact makesNoMemoryAccess_call nnn
  · exact makesNoMemoryAccess_of_skipIf (c := fun s => s.reg x == kk) (fun _ => rfl) fun _ _ => rfl
  · exact makesNoMemoryAccess_of_skipIf (c := fun s => s.reg x != kk) (fun _ => rfl) fun _ _ => rfl
  · exact makesNoMemoryAccess_of_skipIf (c := fun s => s.reg x == s.reg y) (fun _ => rfl) fun _ _ => rfl
  · exact makesNoMemoryAccess_of_skipIf (c := fun s => s.reg x != s.reg y) (fun _ => rfl) fun _ _ => rfl

/-- Settles O28: with room on the stack a CALL saves the advanced `pc` as one entry and then sets `pc`; neither touches
another part of the state. -/
theorem callPushesTheReturnAddress : Obligations.CallPushesTheReturnAddress := by
  unfold Obligations.CallPushesTheReturnAddress
  intro s nnn
  refine ⟨exec_call_of_full, fun j hj => ⟨_, exec_call_of_sp hj, rfl, ?entry, ?others, addr16_toNat nnn, fun _ => rfl,
    rfl, ⟨rfl, rfl⟩, fun _ _ => rfl, fun _ => rfl, sameRest_refl s⟩⟩
  case entry => exact s.stackAt_saveEntry_same j s.pc
  case others => exact fun k hk => State.stackAt_saveEntry_other s.pc hk

/-- Settles O33: both are skips on the comparison of a register with the byte. -/
theorem immediateSkips : Obligations.ImmediateSkips := by
  unfold Obligations.ImmediateSkips
  refine ⟨fun s x kk => ⟨?se, ?sne⟩, fun s x kk hs => ⟨fun hd => ?stepSe, fun hd => ?stepSne⟩⟩
  case se => simpa using exec_answers_of_skipIf (i := .seKk x kk) (s := s) rfl
  case sne => simpa using exec_answers_of_skipIf (i := .sneKk x kk) (s := s) rfl
  case stepSe => simpa using step_of_skipIf hs hd rfl
  case stepSne => simpa using step_of_skipIf hs hd rfl

/-- Settles O34: both are skips on the comparison of two registers, which holds of a register and itself. -/
theorem registerSkips : Obligations.RegisterSkips := by
  unfold Obligations.RegisterSkips
  refine ⟨fun s x y ign => ⟨?se, ?sne⟩, fun s x y ign hs => ⟨fun hd => ?stepSe, fun hd => ?stepSne⟩⟩
  case se => simpa using exec_answers_of_skipIf (i := .seReg x y ign) (s := s) rfl
  case sne => simpa using exec_answers_of_skipIf (i := .sneReg x y ign) (s := s) rfl
  case stepSe => simpa [s.eq_or_reg_eq_iff] using step_of_skipIf hs hd rfl
  case stepSne => simpa [s.eq_or_reg_eq_iff] using step_of_skipIf hs hd rfl

/-- Settles O31: a jump sets `pc` alone, and 0xFFF leaves no room for the second byte of a word. -/
theorem jumpSetsPc : Obligations.JumpSetsPc := by
  unfold Obligations.JumpSetsPc
  refine fun s nnn => ⟨s.setPc (addr16 nnn), rfl, addr16_toNat nnn, onlyPc_setPc s _, fun hn hf => ?fetch⟩
  case fetch =>
    subst hn
    exact step_of_pc_gt (s := s.setPc (addr16 0xFFF#12)) hf
      (show 0xFFE < (addr16 0xFFF#12).toNat by decide)

end Sys2Proof.Machine
end

section
/-! What an instruction that writes one register, or a flag and then a register, leaves there (R8, R12, R112). -/

namespace Sys2Proof.Machine

variable {s : State} {i : Instr} {x : RegNum} {b : Byte}

/-- An instruction that writes one register completes, and changes that register alone. -/
theorem exec_answers_of_setReg (he : exec i s = .next (s.setReg x b)) :
    ∃ t, exec i s = .next t ∧ t.reg x = b ∧ OnlyRegMayDiffer x s t :=
  ⟨_, he, s.reg_setReg_same x b, onlyReg_setReg s x b⟩

/-- The result is written last, so it is what stays in `V[x]`, with `x = F` too (R8, R106). -/
theorem State.reg_writeFlagged_same (s : State) (x : RegNum) (c : Bool) (b : Byte) :
    (s.writeFlagged x c b).reg x = b := by
  rw [State.reg_writeFlagged, if_pos rfl]

theorem State.reg_writeFlagged_vf (s : State) (c : Bool) (b : Byte) (h : x ≠ vf) :
    (s.writeFlagged x c b).reg vf = flagByte c := by
  rw [State.reg_writeFlagged, if_neg h.symm, if_pos rfl]

/-- An instruction that writes a flag and then a result completes, and changes `VF` and the result's register alone. -/
theorem exec_answers_of_writeFlagged {c : Bool} (he : exec i s = .next (s.writeFlagged x c b)) :
    ∃ t, exec i s = .next t ∧ t.reg x = b ∧ (x ≠ vf → t.reg vf = flagByte c) ∧ OnlyRegAndFlagMayDiffer x s t :=
  ⟨_, he, s.reg_writeFlagged_same x c b, s.reg_writeFlagged_vf c b, onlyRegAndFlag_writeFlagged s x c b⟩

theorem sum8_toNat (a b : Byte) : (sum8 a b).toNat = (a.toNat + b.toNat) % 256 := BitVec.toNat_ofNat _ _

theorem flagByte_carry (a b : Byte) : flagByte (carry a b) = if a.toNat + b.toNat > 255 then 1#8 else 0#8 := by
  simp only [flagByte, carry, decide_eq_true_eq]

end Sys2Proof.Machine
end

section
/-! The statements about the register loads, the logic operations and ADD. -/

namespace Sys2Proof.Machine

/-- Settles O36: each writes one register, with the two operands combined bit by bit. -/
theorem logicOperations : Obligations.LogicOperations := by
  unfold Obligations.LogicOperations
  intro s x y
  refine ⟨⟨_, rfl, fun k _ => ?or, onlyReg_setReg s x _⟩, ⟨_, rfl, fun k _ => ?and, onlyReg_setReg s x _⟩,
    ⟨_, rfl, fun k _ => ?xor, onlyReg_setReg s x _⟩⟩
  case or => rw [State.reg_setReg_same, BitVec.getLsbD_or]
  case and => rw [State.reg_setReg_same, BitVec.getLsbD_and]
  case xor => rw [State.reg_setReg_same, BitVec.getLsbD_xor]

/-- Settles O37: ADD writes the carry to `VF` and then the reduced sum to `V[x]`. -/
theorem addSetsCarry : Obligations.AddSetsCarry := by
  unfold Obligations.AddSetsCarry
  intro s x y
  obtain ⟨t, he, hx, hflag, hframe⟩ := exec_answers_of_writeFlagged (i := .addReg x y) (s := s) rfl
  exact ⟨t, he, by rw [hx, sum8_toNat], fun h => by rw [hflag h, flagByte_carry], hframe⟩

/-- Settles O35: each writes one register; the immediate's sum is reduced to 8 bits. -/
theorem loadsAndAddImmediate : Obligations.LoadsAndAddImmediate := by
  unfold Obligations.LoadsAndAddImmediate
  intro s x y kk
  refine ⟨exec_answers_of_setReg rfl, ?add, exec_answers_of_setReg rfl⟩
  case add =>
    obtain ⟨t, he, hx, hframe⟩ := exec_answers_of_setReg (i := .addKk x kk) (s := s) rfl
    exact ⟨t, he, by rw [hx, sum8_toNat], hframe⟩

end Sys2Proof.Machine
end

section
/-! The statements about the display (spec/43). -/

namespace Sys2Proof.Machine

/-- In the clear framebuffer every cell is clear, whatever the state it is put in (R120). -/
theorem State.pixel_setFb_clearFb (s : State) (x : Fin 64) (y : Fin 32) : (s.setFb clearFb).pixel x y = false :=
  clearFb_getMsbD x.val y

/-- Settles O41: CLS answers the state with the clear framebuffer put in, and that touches no other part. -/
theorem clearScreenClearsEveryCell : Obligations.ClearScreenClearsEveryCell := by
  unfold Obligations.ClearScreenClearsEveryCell
  intro s ign
  refine ⟨s.setFb clearFb, rfl, ?cells, ?regs, rfl, rfl, ?stack, ?timers, ?mem, ?rest⟩
  case cells => exact s.pixel_setFb_clearFb
  case regs => exact s.reg_setFb clearFb
  case stack => exact ⟨rfl, s.stackAt_setFb clearFb⟩
  case timers => exact ⟨rfl, rfl⟩
  case mem => exact s.byteAt_setFb clearFb
  case rest => exact sameRest_refl s

end Sys2Proof.Machine
end

section
/-! The key skips and the timer instructions (spec/44): SKP and SKNP share the rules of the other skips, and a timer
instruction's own step adds the tick to what its handler leaves (R84). -/

namespace Sys2Proof.Machine

/-! The frame of a timer write. -/

/-- Everything but the two timers is the same: what an instruction that sets a timer leaves. -/
def OnlyTimersMayDiffer (s t : State) : Prop :=
  SameRegs s t ∧ t.pc = s.pc ∧ t.idx = s.idx ∧ SameStack s t ∧ SameFb s t ∧ SameMem s t ∧ SameRest s t

theorem onlyTimers_setDt (s : State) (b : Byte) : OnlyTimersMayDiffer s (s.setDt b) :=
  ⟨s.reg_setDt b, rfl, rfl, ⟨rfl, s.stackAt_setDt b⟩, s.pixel_setDt b, s.byteAt_setDt b, sameRest_refl s⟩

theorem onlyTimers_setSt (s : State) (b : Byte) : OnlyTimersMayDiffer s (s.setSt b) :=
  ⟨s.reg_setSt b, rfl, rfl, ⟨rfl, s.stackAt_setSt b⟩, s.pixel_setSt b, s.byteAt_setSt b, sameRest_refl s⟩

/-! The key a skip asks for. -/

@[simp] theorem State.key_fetched (s : State) (k : Nat) : s.fetched.key k = s.key k := rfl

/-! The statements about keys and timers. -/

/-- Settles O44: both are skips on the key that the register names modulo 16, SKNP on that key not being pressed; the
fetch changes neither the key latch nor the register. -/
theorem keySkips : Obligations.KeySkips := by
  unfold Obligations.KeySkips
  refine ⟨fun s x ign => ⟨?skp, ?sknp⟩, fun s x ign hs => ⟨fun hd => ?stepSkp, fun hd => ?stepSknp⟩⟩
  case skp => exact exec_answers_of_skipIf (i := .skp x ign) (s := s) rfl
  case sknp => simpa [keyIndex, ← Bool.not_eq_true] using exec_answers_of_skipIf (i := .sknp x ign) (s := s) rfl
  case stepSkp => exact step_of_skipIf hs hd rfl
  case stepSknp => simpa [keyIndex, ← Bool.not_eq_true] using step_of_skipIf hs hd rfl

/-- Settles O45: each handler sets one register or one timer and leaves the rest; what its own step's tick then leaves
is among the consequences of O9. -/
theorem timerInstructions : Obligations.TimerInstructions := by
  unfold Obligations.TimerInstructions
  obtain ⟨-, stepLdDtVx, stepLdStVx, stepLdVxDt, -⟩ := timersTickOncePerStep
  refine ⟨fun s x => ⟨?ldVxDt, ?ldDtVx, ?ldStVx⟩, fun s x hs => ⟨fun hd => ?copied, fun hd => ?dtSet, fun hd => ?stSet⟩⟩
  case ldVxDt => exact exec_answers_of_setReg rfl
  case ldDtVx => exact ⟨s.setDt (s.reg x), rfl, rfl, rfl, onlyTimers_setDt s _⟩
  case ldStVx => exact ⟨s.setSt (s.reg x), rfl, rfl, rfl, onlyTimers_setSt s _⟩
  case copied => exact (stepLdVxDt s x hs hd).imp fun _ ⟨ht, hx, hdt, _⟩ => ⟨ht, hx, hdt⟩
  case dtSet => exact (stepLdDtVx s x hs hd).imp fun _ ⟨ht, hdt, _⟩ => ⟨ht, hdt⟩
  case stSet => exact (stepLdStVx s x hs hd).imp fun _ ⟨ht, hst, _⟩ => ⟨ht, hst⟩

end Sys2Proof.Machine
end

section
/-! The index register and the memory instructions (spec/45): a store through `I` and a load through `I` each have one
rule, in which the whole range is checked before any effect (R44). -/

namespace Sys2Proof.Machine

variable {s : State} {i : Instr} {x : RegNum}

/-! The range an access through `I` reaches. -/

/-- An access whose last byte, at `I + n`, is past 4095 faults, and records the lowest address past memory (R154). -/
theorem exec_faults_of_last_gt {n : Nat} (hi : indexedLength i = n + 1) (h : 4095 < s.idx.toNat + n) :
    exec i s = .fault (.indexOutOfBounds (max s.idx.toNat 4096)) := by
  refine exec_of_outOfBounds ((State.indexInBounds_false_iff _).mpr ?_)
  omega

theorem State.indexInBounds_of_le {n : Nat} (h : s.idx.toNat + n ≤ 4096) : s.indexInBounds n = true :=
  (s.indexInBounds_iff n).mpr (.inr h)

/-! A store through `I`. -/

/-- An instruction that stores bytes from `I` on, all inside memory, completes: each byte is at its address, and nothing
else changes (R46). -/
theorem exec_answers_of_writeBytes {bs : List Byte}
    (he : exec i s = .next (s.setMem (Memory.writeBytes s.params s.mem s.idx.toNat bs)))
    (hfit : s.idx.toNat + bs.length ≤ 4096) (hwf : Memory.wf s.params s.mem = true) :
    ∃ t, exec i s = .next t ∧ (∀ (k : Nat) (hk : k < bs.length), t.byteAt (s.idx.toNat + k) = bs[k]) ∧
      (∀ a : Nat, a < s.idx.toNat ∨ s.idx.toNat + bs.length ≤ a → t.byteAt a = s.byteAt a) ∧ OnlyMemMayDiffer s t :=
  ⟨_, he, fun _ hk => Memory.read_writeBytes_inside hk hfit hwf, fun _ ha => Memory.read_writeBytes_outside ha,
    onlyMem_setMem s _⟩

/-- A decimal digit fits the byte it is stored in (R143). -/
theorem toNat_ofNat_of_le_nine {d : Nat} (h : d ≤ 9) : (BitVec.ofNat 8 d).toNat = d :=
  (BitVec.toNat_ofNat d 8).trans (Nat.mod_eq_of_lt (by omega))

/-! A load through `I`. -/

/-- A register the load names holds the byte at its place from `I` on; the others keep their values (R145). -/
theorem State.reg_setRegs_loadRegs (s : State) (n : Nat) (k : RegNum) :
    (s.setRegs (loadRegs s.v ((List.range n).map fun j => s.byteAt (s.idx.toNat + j)))).reg k =
      if k.val < n then s.byteAt (s.idx.toNat + k.val) else s.reg k := by
  simp only [State.reg, State.setRegs, loadRegs_getElem, List.getD_eq_getElem?_getD, List.getElem?_map]
  split
  next hk => rw [List.getElem?_range hk]; rfl
  next hk => rw [List.getElem?_eq_none (by rw [List.length_range]; omega)]; rfl

/-! The statements about the index register and memory. -/

/-- Settles O47: the address is zero-extended into `I`, and `I` alone is set. -/
theorem setIndex : Obligations.SetIndex := by
  unfold Obligations.SetIndex
  exact fun s nnn => ⟨s.setIdx (addr16 nnn), rfl, addr16_toNat nnn, onlyIdx_setIdx s _⟩

/-- Settles O49: a store of the three digits, each of which fits a byte. -/
theorem bcdStoresThreeDigits : Obligations.BcdStoresThreeDigits := by
  unfold Obligations.BcdStoresThreeDigits
  refine fun s x => ⟨fun h => ?fault, fun h hwf => ?stored⟩
  case fault => exact exec_faults_of_last_gt (n := 2) rfl (by omega)
  case stored =>
    have hlen := bcdDigits_length (s.reg x)
    obtain ⟨t, he, hin, hout, hframe⟩ := exec_answers_of_writeBytes
      (exec_ldB_of_inBounds (x := x) (State.indexInBounds_of_le (by omega))) (by omega) hwf
    have hbyte := (s.reg x).isLt
    refine ⟨t, he, ?hundreds, ?tens, ?ones, hout, hframe⟩
    case hundreds => exact (congrArg BitVec.toNat (hin 0 (by omega))).trans (toNat_ofNat_of_le_nine (by omega))
    case tens => exact (congrArg BitVec.toNat (hin 1 (by omega))).trans (toNat_ofNat_of_le_nine (by omega))
    case ones => exact (congrArg BitVec.toNat (hin 2 (by omega))).trans (toNat_ofNat_of_le_nine (by omega))

/-- Settles O50: a store of the registers up to `V[x]`, in order. -/
theorem storeRegisters : Obligations.StoreRegisters := by
  unfold Obligations.StoreRegisters
  refine fun s x => ⟨exec_faults_of_last_gt rfl, fun h hwf => ?_⟩
  have hlen := s.regsUpTo_length x
  obtain ⟨t, he, hin, hout, hframe⟩ := exec_answers_of_writeBytes
    (exec_ldMemVx_of_inBounds (x := x) (State.indexInBounds_of_le (by omega))) (by omega) hwf
  refine ⟨t, he, fun k (hk : k.val ≤ x.val) => ?stored, fun a ha => hout a (by omega), hframe⟩
  case stored => rw [hin k.val (by omega), s.regsUpTo_getElem]

/-- Settles O51: a load of the registers up to `V[x]`, in order. -/
theorem loadRegisters : Obligations.LoadRegisters := by
  unfold Obligations.LoadRegisters
  refine fun s x => ⟨exec_faults_of_last_gt rfl, fun h => ⟨_,
    exec_ldVxMem_of_inBounds (State.indexInBounds_of_le (by omega)), fun k hk => ?loaded, fun k hk => ?above, rfl, rfl,
    sameBeyondRegs_setRegs s _⟩⟩
  case loaded => exact (s.reg_setRegs_loadRegs _ k).trans (if_pos (Nat.lt_succ_of_le hk))
  case above => exact (s.reg_setRegs_loadRegs _ k).trans (if_neg (Nat.not_lt_of_le hk))

end Sys2Proof.Machine
end

section
/-! Which instructions fault on an access through `I`, and exactly when (R151, R154). -/

namespace Sys2Proof.Machine

variable {i : Instr} {s : State} {a : Nat}

/-- The index fault is the answer exactly of an access that leaves memory: no other answer an instruction has is this
fault (R151). -/
theorem exec_eq_indexOutOfBounds_iff :
    exec i s = .fault (.indexOutOfBounds a) ↔
      a = max s.idx.toNat 4096 ∧ s.indexInBounds (indexedLength i) = false := by
  constructor
  case mp =>
    intro h
    obtain ⟨t, he⟩ | ⟨he, -⟩ | ⟨he, -⟩ | ⟨he, hout⟩ := exec_answers i s <;> rw [he] at h <;> cases h
    exact ⟨rfl, hout⟩
  case mpr =>
    rintro ⟨rfl, hout⟩
    exact exec_of_outOfBounds hout

/-- Four instructions access memory through `I`, each with a last byte of its own (R154). -/
theorem State.indexInBounds_indexedLength_false_iff :
    s.indexInBounds (indexedLength i) = false ↔
      (∃ x y n, i = .drw x y n ∧ 0 < n.val ∧ 4095 < s.idx.toNat + n.val - 1) ∨
        (∃ x, i = .ldB x ∧ 4095 < s.idx.toNat + 2) ∨
        (∃ x, i = .ldMemVx x ∧ 4095 < s.idx.toNat + x.val) ∨
        (∃ x, i = .ldVxMem x ∧ 4095 < s.idx.toNat + x.val) := by
  rw [State.indexInBounds_false_iff]
  constructor
  case mp =>
    rintro ⟨hpos, hlast⟩
    cases i
    case drw x y n => exact .inl ⟨x, y, n, rfl, hpos, hlast⟩
    case ldB x => exact .inr (.inl ⟨x, rfl, hlast⟩)
    case ldMemVx x => exact .inr (.inr (.inl ⟨x, rfl, hlast⟩))
    case ldVxMem x => exact .inr (.inr (.inr ⟨x, rfl, hlast⟩))
    all_goals exact absurd hpos (Nat.lt_irrefl 0)
  case mpr =>
    rintro (⟨x, y, n, rfl, hpos, hlast⟩ | ⟨x, rfl, hlast⟩ | ⟨x, rfl, hlast⟩ | ⟨x, rfl, hlast⟩)
    · exact ⟨hpos, hlast⟩
    · exact ⟨Nat.succ_pos 2, hlast⟩
    · exact ⟨x.val.succ_pos, hlast⟩
    · exact ⟨x.val.succ_pos, hlast⟩

/-- Settles O53: the index fault is the answer exactly of an access that leaves memory, and which instructions make one
is read off the number of bytes each accesses. -/
theorem indexFaultsExactlyOutOfRange : Obligations.IndexFaultsExactlyOutOfRange := by
  unfold Obligations.IndexFaultsExactlyOutOfRange
  intro i s a
  rw [exec_eq_indexOutOfBounds_iff, State.indexInBounds_indexedLength_false_iff]

end Sys2Proof.Machine
end

section
/-! The decoder and the encoder (spec/30): what each table of the dispatch maps, which field of a word it looks at, and
that the instruction it answers has that word. -/

namespace Sys2Proof

variable {w : Word} {i : Instr}

/-! Encoding, then decoding. -/

/-- Each format keeps the fields it packs, so the dispatch finds the instruction's row and its operands (R61, R65). -/
theorem decodeWord_encode (i : Instr) : decodeWord (encode i) = some i := by
  cases i
  case cls | ret => simp [encode, decodeWord, decodeT0]
  case jp | call | ldI | jpV0 => simp [encode, decodeWord]
  case seKk | sneKk | ldKk | addKk | rnd => simp [encode, decodeWord]
  case seReg | sneReg | drw => simp [encode, decodeWord]
  case ldReg | orReg | andReg | xorReg | addReg | subReg | shr | subnReg | shl => simp [encode, decodeWord, decodeT8]
  case skp | sknp => simp [encode, decodeWord, decodeTE]
  case ldVxDt | ldVxK | ldDtVx | ldStVx | addI | ldF | ldB | ldMemVx | ldVxMem =>
    simp [encode, decodeWord, decodeTF]

/-- Two bytes decode to the instruction of the word they make, and leave the bytes after them (R42, R60). -/
theorem decode_eq_ok_iff {hi lo : Byte} {rest : List Byte} :
    decode (hi :: lo :: rest) = .ok (i, rest) ↔ decodeWord (wordOfBytes hi lo) = some i := by
  rw [decode]
  cases decodeWord (wordOfBytes hi lo) <;> simp

theorem decode_eq_unmapped_iff {hi lo : Byte} {rest : List Byte} :
    decode (hi :: lo :: rest) = .error (.unmapped w) ↔
      decodeWord (wordOfBytes hi lo) = none ∧ wordOfBytes hi lo = w := by
  rw [decode]
  cases decodeWord (wordOfBytes hi lo) <;> simp

/-- Settles O1: the dispatch evaluates on each of the twelve words. -/
theorem specWordsDecode : Obligations.SpecWordsDecode := by
  unfold Obligations.SpecWordsDecode
  decide

/-- Settles O2: the dispatch finds the packed fields again, and the two bytes of a word make the word. -/
theorem decodeOfEncodeIsIdentity : Obligations.DecodeOfEncodeIsIdentity := by
  unfold Obligations.DecodeOfEncodeIsIdentity
  refine ⟨decodeWord_encode, fun i rest => decode_eq_ok_iff.mpr ?word⟩
  case word => rw [wordOfBytes_bytes, decodeWord_encode]

/-! Decoding, then encoding: a word whose keys are known is packed from them and from its other fields. -/

variable {op sub : BitVec 4} {kk : BitVec 8}

theorem packZ_eq_of_keys (hop : opField w = 0x0#4) (hsub : subField w = sub) : packZ (midByte w) sub = w :=
  hsub ▸ packZ_fields w hop

theorem packNNN_eq_of_key (hop : opField w = op) : packNNN op (nnnField w) = w :=
  hop ▸ packNNN_fields w

theorem packXKK_eq_of_keys (hop : opField w = op) (hkk : kkField w = kk) : packXKK op (xField w) kk = w :=
  hop ▸ hkk ▸ packXKK_fields w

theorem packXY_eq_of_keys (hop : opField w = op) (hsub : subField w = sub) :
    packXY op (xField w) (yField w) sub = w :=
  hop ▸ hsub ▸ packXY_fields w

theorem packXE_eq_of_keys (hop : opField w = 0xE#4) (hsub : subField w = sub) :
    packXE (xField w) (midNibble w) sub = w :=
  hsub ▸ packXE_fields w hop

/-- What a family-0 word decodes to has that word. -/
theorem encode_of_decodeT0 (hop : opField w = 0x0#4) (h : decodeT0 w = some i) : encode i = w := by
  unfold decodeT0 at h
  split at h <;> cases h
  all_goals next hsub => exact packZ_eq_of_keys hop hsub

/-- What a family-8 word decodes to has that word. -/
theorem encode_of_decodeT8 (hop : opField w = 0x8#4) (h : decodeT8 w = some i) : encode i = w := by
  unfold decodeT8 at h
  split at h <;> cases h
  all_goals next hsub => exact packXY_eq_of_keys hop hsub

/-- What a family-E word decodes to has that word. -/
theorem encode_of_decodeTE (hop : opField w = 0xE#4) (h : decodeTE w = some i) : encode i = w := by
  unfold decodeTE at h
  split at h <;> cases h
  all_goals next hsub => exact packXE_eq_of_keys hop hsub

/-- What a family-F word decodes to has that word. -/
theorem encode_of_decodeTF (hop : opField w = 0xF#4) (h : decodeTF w = some i) : encode i = w := by
  unfold decodeTF at h
  split at h <;> cases h
  all_goals next hkk => exact packXKK_eq_of_keys hop hkk

/-- Settles O3: each family's word is made of the fields its table reads and the operands it hands on. -/
theorem encodeOfDecodeIsIdentity : Obligations.EncodeOfDecodeIsIdentity := by
  unfold Obligations.EncodeOfDecodeIsIdentity
  intro w i h
  unfold decodeWord at h
  split at h
  case h_1 hop => exact encode_of_decodeT0 hop h
  case h_9 hop => exact encode_of_decodeT8 hop h
  case h_15 hop => exact encode_of_decodeTE hop h
  case h_16 hop => exact encode_of_decodeTF hop h
  case h_2 hop | h_3 hop | h_11 hop | h_12 hop => cases h; exact packNNN_eq_of_key hop
  case h_4 hop | h_5 hop | h_7 hop | h_8 hop | h_13 hop => cases h; exact packXKK_eq_of_keys hop rfl
  case h_6 hop | h_10 hop | h_14 hop => cases h; exact packXY_eq_of_keys hop rfl
  case h_17 => cases h

end Sys2Proof
end

section
/-! The opcode map (R66) and the dispatch: a row and the dispatch look at the same bits. -/

namespace Sys2Proof

open Laws.RowMatch (Statement)

/-- The word of an instruction is in the instruction's own row of the opcode map. -/
theorem rowMatch (i : Instr) : Statement i := by
  cases i
  case cls => exact Laws.RowMatch.cls _
  case ret => exact Laws.RowMatch.ret _
  case jp => exact Laws.RowMatch.jp _
  case call => exact Laws.RowMatch.call _
  case seKk => exact Laws.RowMatch.seKk _ _
  case sneKk => exact Laws.RowMatch.sneKk _ _
  case seReg => exact Laws.RowMatch.seReg _ _ _
  case ldKk => exact Laws.RowMatch.ldKk _ _
  case addKk => exact Laws.RowMatch.addKk _ _
  case ldReg => exact Laws.RowMatch.ldReg _ _
  case orReg => exact Laws.RowMatch.orReg _ _
  case andReg => exact Laws.RowMatch.andReg _ _
  case xorReg => exact Laws.RowMatch.xorReg _ _
  case addReg => exact Laws.RowMatch.addReg _ _
  case subReg => exact Laws.RowMatch.subReg _ _
  case shr => exact Laws.RowMatch.shr _ _
  case subnReg => exact Laws.RowMatch.subnReg _ _
  case shl => exact Laws.RowMatch.shl _ _
  case sneReg => exact Laws.RowMatch.sneReg _ _ _
  case ldI => exact Laws.RowMatch.ldI _
  case jpV0 => exact Laws.RowMatch.jpV0 _
  case rnd => exact Laws.RowMatch.rnd _ _
  case drw => exact Laws.RowMatch.drw _ _ _
  case skp => exact Laws.RowMatch.skp _ _
  case sknp => exact Laws.RowMatch.sknp _ _
  case ldVxDt => exact Laws.RowMatch.ldVxDt _
  case ldVxK => exact Laws.RowMatch.ldVxK _
  case ldDtVx => exact Laws.RowMatch.ldDtVx _
  case ldStVx => exact Laws.RowMatch.ldStVx _
  case addI => exact Laws.RowMatch.addI _
  case ldF => exact Laws.RowMatch.ldF _
  case ldB => exact Laws.RowMatch.ldB _
  case ldMemVx => exact Laws.RowMatch.ldMemVx _
  case ldVxMem => exact Laws.RowMatch.ldVxMem _

/-- The bits the dispatch reads of a word with the leading nibble `op` (R65). -/
def dispatchMask (op : BitVec 4) : Word :=
  match op with
  | 0x0#4 | 0x8#4 | 0xE#4 => 0xF00F#16
  | 0xF#4 => 0xF0FF#16
  | _ => 0xF000#16

/-- Every mask of the dispatch keeps the leading nibble. -/
theorem opField_and_dispatchMask (w : Word) (op : BitVec 4) : opField (w &&& dispatchMask op) = opField w := by
  unfold dispatchMask
  split <;> simp [and_mask_op, and_mask_op_sub, and_mask_op_kk]

/-- Words that agree on the bits of a mask agree on a field the mask keeps. -/
theorem field_eq_of_and_eq {α : Type} {f : Word → α} {mask w p : Word} (hf : ∀ v, f (v &&& mask) = f v)
    (h : w &&& mask = p &&& mask) : f w = f p := by
  rw [← hf w, h, hf p]

theorem subField_and_mask_op_sub (w : Word) : subField (w &&& 0xF00F#16) = subField w := by
  simp [and_mask_op_sub]

theorem kkField_and_mask_op_kk (w : Word) : kkField (w &&& 0xF0FF#16) = kkField w := by
  simp [and_mask_op_kk]

section Keys
variable {w p : Word}

theorem decodeT0_row_eq (h : subField w = subField p) :
    (decodeT0 w).map Instr.rowIndex = (decodeT0 p).map Instr.rowIndex := by
  unfold decodeT0; rw [h]; split <;> rfl

theorem decodeT8_row_eq (h : subField w = subField p) :
    (decodeT8 w).map Instr.rowIndex = (decodeT8 p).map Instr.rowIndex := by
  unfold decodeT8; rw [h]; split <;> rfl

theorem decodeTE_row_eq (h : subField w = subField p) :
    (decodeTE w).map Instr.rowIndex = (decodeTE p).map Instr.rowIndex := by
  unfold decodeTE; rw [h]; split <;> rfl

theorem decodeTF_row_eq (h : kkField w = kkField p) :
    (decodeTF w).map Instr.rowIndex = (decodeTF p).map Instr.rowIndex := by
  unfold decodeTF; rw [h]; split <;> rfl

/-- Words that agree on the bits the dispatch reads decode to instructions of one row, or neither to any. -/
theorem decodeWord_row_eq (h : w &&& dispatchMask (opField p) = p &&& dispatchMask (opField p)) :
    (decodeWord w).map Instr.rowIndex = (decodeWord p).map Instr.rowIndex := by
  have hop : opField w = opField p := field_eq_of_and_eq (opField_and_dispatchMask · _) h
  unfold decodeWord
  rw [hop]
  split
  case h_1 hp => rw [hp] at h; exact decodeT0_row_eq (field_eq_of_and_eq subField_and_mask_op_sub h)
  case h_9 hp => rw [hp] at h; exact decodeT8_row_eq (field_eq_of_and_eq subField_and_mask_op_sub h)
  case h_15 hp => rw [hp] at h; exact decodeTE_row_eq (field_eq_of_and_eq subField_and_mask_op_sub h)
  case h_16 hp => rw [hp] at h; exact decodeTF_row_eq (field_eq_of_and_eq kkField_and_mask_op_kk h)
  all_goals rfl

end Keys

/-- Each row of the opcode map has the mask of the dispatch, and its pattern is a word of the row's own instruction. -/
theorem opcodeRows_pattern : ∀ k : Fin 34, ∀ r ∈ opcodeRows[k.val]?,
    r.mask = dispatchMask (opField r.pattern) ∧ r.pattern &&& r.mask = r.pattern ∧
      (decodeWord r.pattern).map Instr.rowIndex = some k.val := by
  decide

/-- A word that a row hits decodes to an instruction of that row. -/
theorem decodeWord_row_of_hits {w : Word} {k : Nat} {r : OpcodeRow} (hr : opcodeRows[k]? = some r)
    (h : r.hits w = true) : ∃ i, decodeWord w = some i ∧ i.rowIndex = k := by
  have hk : k < 34 := (List.getElem?_eq_some_iff.mp hr).1
  obtain ⟨hmask, hself, hrow⟩ := opcodeRows_pattern ⟨k, hk⟩ r hr
  have hw : w &&& r.mask = r.pattern := by simpa [OpcodeRow.hits] using h
  rw [← decodeWord_row_eq (w := w) (by rw [← hmask, hw, hself])] at hrow
  simpa using hrow

/-- Settles O4: the word of an instruction hits its row, and a row that a word hits is that of the one instruction the
word decodes to. -/
theorem dispatchAgreesWithOpcodeMap : Obligations.DispatchAgreesWithOpcodeMap := by
  unfold Obligations.DispatchAgreesWithOpcodeMap
  refine ⟨fun w i h => ?own, fun w k r => decodeWord_row_of_hits, fun w j k q r hq hr hqw hrw => ?one⟩
  case own =>
    have hrow := rowMatch i
    rw [Statement, encodeOfDecodeIsIdentity w i h] at hrow
    simpa using hrow
  case one =>
    obtain ⟨i, hi, rfl⟩ := decodeWord_row_of_hits hq hqw
    obtain ⟨i', hi', rfl⟩ := decodeWord_row_of_hits hr hrw
    rw [hi] at hi'
    cases hi'
    rfl

end Sys2Proof
end

section
/-! Which words are mapped (R70), and how many of each leading nibble. -/

namespace Sys2Proof

/-! The keys of the second-level tables. -/

/-- The mapped keys of `T0` (R65). -/
def keysT0 : List (BitVec 4) := [0x0#4, 0xE#4]

/-- The mapped keys of `T8`. -/
def keysT8 : List (BitVec 4) := [0x0#4, 0x1#4, 0x2#4, 0x3#4, 0x4#4, 0x5#4, 0x6#4, 0x7#4, 0xE#4]

/-- The mapped keys of `TE`. -/
def keysTE : List (BitVec 4) := [0x1#4, 0xE#4]

/-- The mapped keys of `TF`. -/
def keysTF : List (BitVec 8) := [0x07#8, 0x0A#8, 0x15#8, 0x18#8, 0x1E#8, 0x29#8, 0x33#8, 0x55#8, 0x65#8]

theorem decodeT0_isSome (w : Word) : (decodeT0 w).isSome = decide (subField w ∈ keysT0) := by
  unfold decodeT0; split <;> simp_all [keysT0]

theorem decodeT8_isSome (w : Word) : (decodeT8 w).isSome = decide (subField w ∈ keysT8) := by
  unfold decodeT8; split <;> simp_all [keysT8]

theorem decodeTE_isSome (w : Word) : (decodeTE w).isSome = decide (subField w ∈ keysTE) := by
  unfold decodeTE; split <;> simp_all [keysTE]

theorem decodeTF_isSome (w : Word) : (decodeTF w).isSome = decide (kkField w ∈ keysTF) := by
  unfold decodeTF; split <;> simp_all [keysTF]

/-- The key of a word is mapped: the sub-key of families 0, 8, E and F, and every word of the other families. -/
def mappedKeys (op sub : BitVec 4) (kk : BitVec 8) : Bool :=
  match op with
  | 0x0#4 => decide (sub ∈ keysT0)
  | 0x8#4 => decide (sub ∈ keysT8)
  | 0xE#4 => decide (sub ∈ keysTE)
  | 0xF#4 => decide (kk ∈ keysTF)
  | _ => true

theorem decodeWord_isSome (w : Word) : (decodeWord w).isSome = mappedKeys (opField w) (subField w) (kkField w) := by
  unfold decodeWord
  split
  case h_1 hop => rw [hop]; exact decodeT0_isSome w
  case h_9 hop => rw [hop]; exact decodeT8_isSome w
  case h_15 hop => rw [hop]; exact decodeTE_isSome w
  case h_16 hop => rw [hop]; exact decodeTF_isSome w
  case h_17 =>
    -- every leading nibble has an arm of its own
    exfalso
    generalize opField w = op at *
    revert op
    decide
  all_goals next hop => rw [hop]; rfl

/-! Counting the mapped words of one leading nibble. -/

/-- A property of the residue modulo `m` holds of as many numbers in each of `q` periods. -/
theorem length_filter_range_mul (p : Nat → Bool) (q m : Nat) :
    ((List.range (q * m)).filter fun n => p (n % m)).length = q * ((List.range m).filter p).length := by
  induction q with
  | zero => simp
  | succ q ih =>
    have hlast : ((List.range m).map (q * m + ·)).filter (fun n => p (n % m)) =
        ((List.range m).filter p).map (q * m + ·) := by
      rw [List.filter_map]
      refine congrArg _ (List.filter_congr fun n hn => ?_)
      have hlt : n < m := List.mem_range.mp hn
      simp [Nat.mod_eq_of_lt hlt]
    rw [Nat.succ_mul, List.range_add, List.filter_append, List.length_append, ih, hlast, List.length_map, Nat.succ_mul]

/-- The words of one leading nibble, in order. -/
def familyWord (op n : Nat) : Word := BitVec.ofNat 16 (op * 4096 + n)

section Family
variable {op n : Nat}

theorem opField_familyWord (hn : n < 4096) : opField (familyWord op n) = BitVec.ofNat 4 op := by
  apply BitVec.eq_of_toNat_eq
  simp only [opField, familyWord, BitVec.extractLsb'_toNat, BitVec.toNat_ofNat, Nat.shiftRight_eq_div_pow]
  omega

theorem subField_familyWord : subField (familyWord op n) = BitVec.ofNat 4 (n % 16) := by
  apply BitVec.eq_of_toNat_eq
  simp only [subField, familyWord, BitVec.extractLsb'_toNat, BitVec.toNat_ofNat, Nat.shiftRight_eq_div_pow]
  omega

theorem kkField_familyWord : kkField (familyWord op n) = BitVec.ofNat 8 (n % 256) := by
  apply BitVec.eq_of_toNat_eq
  simp only [kkField, familyWord, BitVec.extractLsb'_toNat, BitVec.toNat_ofNat, Nat.shiftRight_eq_div_pow]
  omega

theorem familyWord_isSome (hn : n < 4096) : (decodeWord (familyWord op n)).isSome =
    mappedKeys (BitVec.ofNat 4 op) (BitVec.ofNat 4 (n % 16)) (BitVec.ofNat 8 (n % 256)) := by
  rw [decodeWord_isSome, opField_familyWord hn, subField_familyWord, kkField_familyWord]

/-- How many of 4096 words are mapped, where that is decided by a key that repeats with period `m`. -/
theorem mapped_count {word : Nat → Word} {p : Nat → Bool} (q m : Nat) (hqm : q * m = 4096)
    (hp : ∀ n < 4096, (decodeWord (word n)).isSome = p (n % m)) :
    ((List.range 4096).filter fun n => (decodeWord (word n)).isSome).length =
      q * ((List.range m).filter p).length := by
  rw [← length_filter_range_mul, hqm]
  exact congrArg _ (List.filter_congr fun n hn => hp n (List.mem_range.mp hn))

end Family

/-- Settles O5: the direct families map all their words; the others map as many as their keys, times the values of the
bits that are no key. -/
theorem mappedWordCounts : Obligations.MappedWordCounts := by
  unfold Obligations.MappedWordCounts
  refine ⟨fun op hop => ?direct, ?family0, ?family8, ?familyE, ?familyF⟩
  case direct =>
    refine mapped_count 4096 1 rfl (p := fun _ => true) fun n hn => (familyWord_isSome hn).trans ?_
    fin_cases hop <;> rfl
  case family0 =>
    refine mapped_count 256 16 rfl (p := fun k => decide (BitVec.ofNat 4 k ∈ keysT0)) fun n hn => ?_
    have hword : BitVec.ofNat 16 n = familyWord 0 n := by simp [familyWord]
    rw [hword]
    exact familyWord_isSome hn
  case family8 =>
    exact mapped_count 256 16 rfl (p := fun k => decide (BitVec.ofNat 4 k ∈ keysT8)) fun n hn => familyWord_isSome hn
  case familyE =>
    exact mapped_count 256 16 rfl (p := fun k => decide (BitVec.ofNat 4 k ∈ keysTE)) fun n hn => familyWord_isSome hn
  case familyF =>
    exact mapped_count 16 256 rfl (p := fun k => decide (BitVec.ofNat 8 k ∈ keysTF)) fun n hn => familyWord_isSome hn

/-! The unmapped words. -/

theorem not_mem_keysT0 : ∀ k : BitVec 4, k ∉ keysT0 ↔
    k ∈ [0x1#4, 0x2#4, 0x3#4, 0x4#4, 0x5#4, 0x6#4, 0x7#4, 0x8#4, 0x9#4, 0xA#4, 0xB#4, 0xC#4, 0xD#4, 0xF#4] := by
  decide

theorem not_mem_keysT8 : ∀ k : BitVec 4, k ∉ keysT8 ↔
    k ∈ [0x8#4, 0x9#4, 0xA#4, 0xB#4, 0xC#4, 0xD#4, 0xF#4] := by
  decide

theorem not_mem_keysTE : ∀ k : BitVec 4, k ∉ keysTE ↔
    k ∈ [0x0#4, 0x2#4, 0x3#4, 0x4#4, 0x5#4, 0x6#4, 0x7#4, 0x8#4, 0x9#4, 0xA#4, 0xB#4, 0xC#4, 0xD#4, 0xF#4] := by
  decide

/-- Settles O8: a word is unmapped exactly when its family has a table and its key is not in it; the step then does
nothing between the fetch and the tick. -/
theorem unmappedWordsAreNoOps : Obligations.UnmappedWordsAreNoOps := by
  unfold Obligations.UnmappedWordsAreNoOps
  refine ⟨fun w => ?which, fun s hs hd => ?noOp⟩
  case which =>
    rw [← Option.not_isSome_iff_eq_none, decodeWord_isSome]
    generalize opField w = op, subField w = sub, kkField w = kk
    unfold mappedKeys
    split
    case h_1 => simpa using not_mem_keysT0 sub
    case h_2 => simpa using not_mem_keysT8 sub
    case h_3 => simpa using not_mem_keysTE sub
    case h_4 => simp [keysTF]
    case h_5 h0 h8 hE hF =>
      refine iff_of_false (not_not_intro rfl) ?_
      rintro (⟨h, -⟩ | ⟨h, -⟩ | ⟨h, -⟩ | ⟨h, -⟩)
      exacts [h0 h, h8 h, hE h, hF h]
  case noOp =>
    exact ⟨_, Machine.step_of_unmapped hs hd, s.fetched_pc_toNat hs.2, s.fetched.endStep_dt_toNat,
      s.fetched.endStep_st_toNat, rfl, fun _ => rfl, rfl, ⟨rfl, fun _ => rfl⟩, fun _ _ => rfl, fun _ => rfl, rfl,
      hs.1, rfl⟩

end Sys2Proof
end

section
/-! The bits that neither the dispatch nor an instruction looks at (R64). -/

namespace Sys2Proof

open Machine

/-- The instruction without the operands it does not look at: in its canonical form, and a shift without its `y`. -/
def Instr.examined : Instr → Instr
  | .shr x _ => .shr x 0
  | .shl x _ => .shl x 0
  | i => i.canonical

/-! What the masks of the examined bits select. -/

theorem and_mask_op_x_y (w : Word) : w &&& 0xFFF0#16 = packXY (opField w) (xField w) (yField w) 0#4 := by
  unfold packXY; rw [ofFin_xField, ofFin_yField]
  apply BitVec.eq_of_getLsbD_eq; intro i hi
  interval_cases i <;> simp [opField]

theorem and_mask_op_x_sub (w : Word) : w &&& 0xFF0F#16 = packXY (opField w) (xField w) 0 (subField w) := by
  unfold packXY; rw [ofFin_xField]
  apply BitVec.eq_of_getLsbD_eq; intro i hi
  interval_cases i <;> simp [opField, subField]

theorem and_mask_all (w : Word) : w &&& 0xFFFF#16 = w := BitVec.and_allOnes

theorem eq_of_and_mask_all {w v : Word} (h : w &&& 0xFFFF#16 = v &&& 0xFFFF#16) : w = v := by
  rwa [and_mask_all, and_mask_all] at h

theorem xField_and_mask_op_x_y (w : Word) : xField (w &&& 0xFFF0#16) = xField w := by simp [and_mask_op_x_y]
theorem yField_and_mask_op_x_y (w : Word) : yField (w &&& 0xFFF0#16) = yField w := by simp [and_mask_op_x_y]
theorem xField_and_mask_op_x_sub (w : Word) : xField (w &&& 0xFF0F#16) = xField w := by simp [and_mask_op_x_sub]
theorem subField_and_mask_op_x_sub (w : Word) : subField (w &&& 0xFF0F#16) = subField w := by simp [and_mask_op_x_sub]

/-- Every mask of examined bits keeps the leading nibble. -/
theorem opField_and_examinedMask (w v : Word) : opField (w &&& examinedMask v) = opField w := by
  unfold examinedMask
  split
  case h_3 => split <;> simp [and_mask_op_x_sub, and_mask_all]
  all_goals simp [and_mask_op_sub, and_mask_op_x_y, and_mask_op_x_sub, and_mask_all]

/-! Words that agree on the examined bits decode alike, but for the operands that are not looked at. -/

section Agree
variable {w v : Word}

theorem decodeT0_examined_eq (hsub : subField w = subField v) :
    (decodeT0 w).map Instr.examined = (decodeT0 v).map Instr.examined := by
  unfold decodeT0; rw [hsub]; split <;> rfl

theorem decodeTE_examined_eq (hx : xField w = xField v) (hsub : subField w = subField v) :
    (decodeTE w).map Instr.examined = (decodeTE v).map Instr.examined := by
  unfold decodeTE; rw [hsub, hx]; split <;> rfl

theorem decodeT8_examined_eq_of_shift (hx : xField w = xField v) (hsub : subField w = subField v)
    (h : subField v = 0x6#4 ∨ subField v = 0xE#4) :
    (decodeT8 w).map Instr.examined = (decodeT8 v).map Instr.examined := by
  unfold decodeT8; rw [hsub, hx]
  obtain h | h := h <;> rw [h] <;> rfl

/-- In family 8 the `y` of a shift is all that is not looked at. -/
theorem decodeT8_examined_eq (hw : opField w = 0x8#4) (hv : opField v = 0x8#4)
    (h : w &&& examinedMask w = v &&& examinedMask v) :
    (decodeT8 w).map Instr.examined = (decodeT8 v).map Instr.examined := by
  have hsub : subField w = subField v := by
    have := congrArg subField h
    simp only [examinedMask, hw, hv] at this
    split at this <;> split at this <;> simpa [and_mask_op_x_sub, and_mask_all] using this
  simp only [examinedMask, hw, hv, hsub] at h
  split at h
  next hshift =>
    have hx := field_eq_of_and_eq xField_and_mask_op_x_sub h
    exact decodeT8_examined_eq_of_shift hx hsub hshift
  next => rw [eq_of_and_mask_all h]

/-- Words that agree on the examined bits decode to the same instruction, but for the operands not looked at. -/
theorem decodeWord_examined_eq (h : w &&& examinedMask w = v &&& examinedMask v) :
    (decodeWord w).map Instr.examined = (decodeWord v).map Instr.examined := by
  have hop : opField w = opField v := by
    rw [← opField_and_examinedMask w w, h, opField_and_examinedMask]
  unfold decodeWord
  rw [hop]
  split
  case h_1 hv =>
    simp only [examinedMask, hop, hv] at h
    exact decodeT0_examined_eq (field_eq_of_and_eq subField_and_mask_op_sub h)
  case h_6 hv | h_10 hv =>
    simp only [examinedMask, hop, hv] at h
    rw [field_eq_of_and_eq xField_and_mask_op_x_y h, field_eq_of_and_eq yField_and_mask_op_x_y h]
    rfl
  case h_9 hv => exact decodeT8_examined_eq (hop.trans hv) hv h
  case h_15 hv =>
    simp only [examinedMask, hop, hv] at h
    exact decodeTE_examined_eq (field_eq_of_and_eq xField_and_mask_op_x_sub h)
      (field_eq_of_and_eq subField_and_mask_op_x_sub h)
  case h_17 => rfl
  all_goals
    next hv =>
      rw [examinedMask, examinedMask, hop, hv] at h
      rw [eq_of_and_mask_all h]

end Agree

/-! What an instruction does without the operands it does not look at. -/

/-- No meaning reads an operand that is not looked at. -/
theorem exec_examined (i : Instr) (s : State) : exec i.examined s = exec i s := by
  cases i <;> rfl

theorem exec_canonical (i : Instr) (s : State) : exec i.canonical s = exec i s := by
  cases i <;> rfl

/-- What a word does is what the instruction it decodes to does without the operands it does not look at. -/
theorem runWord_eq_examined (w : Word) (s : State) :
    runWord w s = (((decodeWord w).map Instr.examined).map (exec · s)).getD (execNop s) := by
  unfold runWord
  cases decodeWord w with
  | none => rfl
  | some i => exact (exec_examined i s).symm

/-- Settles O6: words that agree on the examined bits decode to the same instruction but for operands that no meaning
reads, and the canonical form only sets such operands. -/
theorem ignoredBitsChangeNothing : Obligations.IgnoredBitsChangeNothing := by
  unfold Obligations.IgnoredBitsChangeNothing
  refine ⟨fun w v s h => ?run, exec_canonical, fun i => ?wellFormed⟩
  case run => rw [runWord_eq_examined, runWord_eq_examined, decodeWord_examined_eq h]
  case wellFormed => cases i <;> simp [Instr.wellFormed, Instr.canonical]

end Sys2Proof
end

section
/-! The call stack over a CALL and a RET, the stack faults of a step, and JP V0 (spec/41, R90 to R93; R152, R153). -/

namespace Sys2Proof.Machine

variable {s : State} {i : Instr} {f : Fault}

/-- A step whose handler faults is that fault (R80). -/
theorem step_of_exec_fault (hs : s.canFetch) (hd : decodeWord s.fetchWord = some i)
    (he : exec i s.fetched = .fault f) : step s = .fault f := by
  obtain ⟨hfault, hpc⟩ := hs
  rw [step_of_fetch hfault (s.fetchInBounds_iff.mpr hpc), runWord_of_mapped hd, he, finish]

/-- The state with `pc` taken from entry `j` of the call stack and the entries below `j` counted (R15, D14). -/
def State.takeEntry (s : State) (j : Fin 16) : State := { s with sp := j.castSucc, pc := s.stackAt j }

/-- A RET with an entry saved takes the last one (R90). -/
theorem exec_ret_of_sp {ign : BitVec 8} {j : Fin 16} (h : s.sp.val = j.val + 1) :
    exec (.ret ign) s = .next (s.takeEntry j) := by
  rw [exec_ret_of_pos (by omega)]
  simp only [h, Nat.add_sub_cancel]
  rfl

/-- Settles O27: RET takes the last entry into `pc`, and the invariant bounds every entry. -/
theorem returnPopsTheStack : Obligations.ReturnPopsTheStack := by
  unfold Obligations.ReturnPopsTheStack
  refine fun s ign => ⟨exec_ret_of_zero, fun j hj => ⟨s.takeEntry j, exec_ret_of_sp hj, rfl, rfl, ?bound,
    fun _ => rfl, fun _ => rfl, rfl, ⟨rfl, rfl⟩, fun _ _ => rfl, fun _ => rfl, sameRest_refl s⟩⟩
  case bound => exact fun ⟨_, _, _, hstack⟩ => hstack j

/-- Settles O29: the entry the CALL saved is the last one, and holds the `pc` it was called with. -/
theorem returnResumesAfterCall : Obligations.ReturnResumesAfterCall := by
  unfold Obligations.ReturnResumesAfterCall
  intro s t u nnn ign hcall husp hustack
  obtain hfull | hroom := Nat.eq_or_lt_of_le (Nat.le_of_lt_succ s.sp.isLt)
  case inl => rw [exec_call_of_full hfull] at hcall; cases hcall
  case inr =>
    have hsp : s.sp.val = (⟨s.sp.val, hroom⟩ : Fin 16).val := rfl
    rw [exec_call_of_sp hsp] at hcall
    cases hcall
    refine ⟨_, exec_ret_of_sp (j := ⟨s.sp.val, hroom⟩) (congrArg Fin.val husp), ?pc, rfl⟩
    case pc => exact (hustack _).trans (s.stackAt_saveEntry_same _ _)

theorem decodeWord_ret {w : Word} (hop : opField w = 0x0#4) (hsub : subField w = 0xE#4) :
    decodeWord w = some (.ret (midByte w)) := by
  simp [decodeWord, decodeT0, hop, hsub]

/-- Settles O30: the handler the fetched word decodes to faults on the stack that the fetch leaves as it was. -/
theorem stackFaultsAtTheStep : Obligations.StackFaultsAtTheStep := by
  unfold Obligations.StackFaultsAtTheStep
  refine ⟨fun s nnn hs hsp hd => ?overflow, fun s hs hsp hop hsub => ?underflow⟩
  case overflow => exact step_of_exec_fault hs hd (exec_call_of_full hsp)
  case underflow => exact step_of_exec_fault hs (decodeWord_ret hop hsub) (exec_ret_of_zero hsp)

/-- The target of JP V0 does not wrap, being at most 0xFFF + 0xFF (R92). -/
theorem addr16_add_zext16_toNat (nnn : BitVec 12) (b : Byte) :
    (addr16 nnn + zext16 b).toNat = nnn.toNat + b.toNat := by
  have := nnn.isLt
  have := b.isLt
  rw [BitVec.toNat_add, addr16_toNat, zext16_toNat, Nat.mod_eq_of_lt (by omega)]

/-- Settles O32: the sum is of a 12-bit and an 8-bit number, and `pc` alone is set. -/
theorem jumpV0AddsTheRegister : Obligations.JumpV0AddsTheRegister := by
  unfold Obligations.JumpV0AddsTheRegister
  intro s nnn
  have hpc := addr16_add_zext16_toNat nnn (s.reg 0)
  refine ⟨s.setPc (addr16 nnn + zext16 (s.reg 0)), rfl, hpc, ?bound, onlyPc_setPc s _⟩
  case bound =>
    have := nnn.isLt
    have := (s.reg 0).isLt
    rw [State.setPc_pc, hpc]
    omega

end Sys2Proof.Machine
end

section
/-! The flag instructions but ADD, and RND (spec/42). -/

namespace Sys2Proof.Machine

/-! The differences, the halves and the doubles as numbers, and the flags as bytes. -/

theorem diff8_toNat (a b : Byte) : (diff8 a b).toNat = (256 + a.toNat - b.toNat) % 256 := BitVec.toNat_ofNat _ _

theorem half8_toNat (a : Byte) : (half8 a).toNat = a.toNat / 2 := by
  have := a.isLt
  rw [half8, BitVec.toNat_ofNat, Nat.mod_eq_of_lt (by omega)]

theorem double8_toNat (a : Byte) : (double8 a).toNat = a.toNat * 2 % 256 := BitVec.toNat_ofNat _ _

theorem diff8_toNat_of_le {a b : Byte} (h : b.toNat ≤ a.toNat) : (diff8 a b).toNat = a.toNat - b.toNat := by
  have := a.isLt
  rw [diff8_toNat]
  omega

theorem diff8_toNat_of_lt {a b : Byte} (h : a.toNat < b.toNat) : (diff8 a b).toNat = 256 + a.toNat - b.toNat := by
  rw [diff8_toNat]
  omega

theorem half8_eq_shift (a : Byte) : half8 a = a >>> 1 := by
  apply BitVec.eq_of_toNat_eq
  rw [half8_toNat, BitVec.toNat_ushiftRight, Nat.shiftRight_eq_div_pow]

theorem double8_eq_shift (a : Byte) : double8 a = a <<< 1 := by
  apply BitVec.eq_of_toNat_eq
  rw [double8_toNat, BitVec.toNat_shiftLeft, Nat.shiftLeft_eq]

theorem flagByte_notBorrow (a b : Byte) : flagByte (notBorrow a b) = if a.toNat ≥ b.toNat then 1#8 else 0#8 := by
  simp only [flagByte, notBorrow, decide_eq_true_eq]

theorem flagByte_eq_zero_or_one (c : Bool) : flagByte c = 0#8 ∨ flagByte c = 1#8 := by
  cases c
  · exact .inl rfl
  · exact .inr rfl

/-- Settles O38: SUB and SUBN write the not-borrow and then the reduced difference, of the same two operands in either
order. -/
theorem subtractsSetNotBorrow : Obligations.SubtractsSetNotBorrow := by
  unfold Obligations.SubtractsSetNotBorrow
  refine fun s x y => ⟨?sub, ?subn⟩
  case sub =>
    obtain ⟨t, he, hx, hflag, hframe⟩ := exec_answers_of_writeFlagged (i := .subReg x y) (s := s) rfl
    exact ⟨t, he, fun h => hx ▸ diff8_toNat_of_le h, fun h => hx ▸ diff8_toNat_of_lt h,
      fun h => (hflag h).trans (flagByte_notBorrow _ _), hframe⟩
  case subn =>
    obtain ⟨t, he, hx, hflag, hframe⟩ := exec_answers_of_writeFlagged (i := .subnReg x y) (s := s) rfl
    exact ⟨t, he, fun h => hx ▸ diff8_toNat_of_le h, fun h => hx ▸ diff8_toNat_of_lt h,
      fun h => (hflag h).trans (flagByte_notBorrow _ _), hframe⟩

/-- Settles O39: each writes the bit that leaves and then the shifted register. -/
theorem shiftsMoveOneBitOut : Obligations.ShiftsMoveOneBitOut := by
  unfold Obligations.ShiftsMoveOneBitOut
  refine fun s x y => ⟨?shr, ?shl⟩
  case shr =>
    obtain ⟨t, he, hx, hflag, hframe⟩ := exec_answers_of_writeFlagged (i := .shr x y) (s := s) rfl
    rw [half8_eq_shift] at hx
    exact ⟨t, he, fun k _ => by simp [hx, Nat.add_comm], by simp [hx], hflag, hframe⟩
  case shl =>
    obtain ⟨t, he, hx, hflag, hframe⟩ := exec_answers_of_writeFlagged (i := .shl x y) (s := s) rfl
    rw [double8_eq_shift] at hx
    exact ⟨t, he, fun k hk => by simpa [hx] using fun _ => show k + 1 < 8 by omega, by simp [hx], hflag, hframe⟩

/-- Settles O40: one register is written, with the step's random byte under the mask. -/
theorem randomUnderMask : Obligations.RandomUnderMask := by
  unfold Obligations.RandomUnderMask
  intro s x kk
  obtain ⟨t, he, hx, hframe⟩ := exec_answers_of_setReg (i := .rnd x kk) (s := s) rfl
  refine ⟨t, he, hframe, fun r hr => ?supplied, fun k _ hk => ?masked⟩
  case supplied => rw [hx, State.rndByte, hr, Option.getD_some]
  case masked => rw [hx, BitVec.getLsbD_and, hk, Bool.and_false]

end Sys2Proof.Machine
end

section
/-! Drawing (spec/43): the cells a sprite lands on, a draw that completes, and the same draw twice (R121, R122). -/

namespace Sys2Proof.Machine

variable {s t u : State} {x y : RegNum} {n : Nat}

/-! The cells a sprite lands on. -/

/-- The bytes a draw of `n` rows reads (R121). -/
def State.spriteBytes (s : State) (n : Nat) : List Byte := (List.range n).map fun k => s.byteAt (s.idx.toNat + k)

theorem State.spriteBytes_getD (s : State) (n k : Nat) :
    (s.spriteBytes n).getD k 0#8 = if k < n then s.byteAt (s.idx.toNat + k) else 0#8 := by
  rw [State.spriteBytes, List.getD_eq_getElem?_getD, List.getElem?_map]
  split
  next hk => rw [List.getElem?_range hk]; rfl
  next hk => rw [List.getElem?_eq_none (by rw [List.length_range]; omega)]; rfl

/-- A cell of the frame is covered by the rows a draw reads exactly when a sprite bit of 1 lands on it (R121). -/
theorem State.covers_spriteBytes (s : State) (x y : RegNum) (n : Nat) (px : Fin 64) (py : Fin 32) :
    covers (s.spriteBytes n) ((s.reg x).toNat % 64) ((s.reg y).toNat % 32) px.val py.val =
      s.spriteLands x y n px.val py.val := by
  rw [covers, spriteRow_getMsbD _ _ _ px.isLt, State.spriteBytes_getD, State.spriteLands, Bool.eq_iff_iff]
  simp only [Bool.and_eq_true, decide_eq_true_eq]
  split
  case isTrue hrow =>
    constructor
    · rintro ⟨hy, ⟨hx, hx8⟩, hbit⟩
      exact ⟨⟨⟨⟨hx, by omega⟩, hy⟩, by omega⟩, hbit⟩
    · rintro ⟨⟨⟨⟨hx, hx8⟩, hy⟩, -⟩, hbit⟩
      exact ⟨hy, ⟨hx, by omega⟩, hbit⟩
  case isFalse hrow =>
    refine iff_of_false (fun ⟨_, _, hbit⟩ => ?_) (fun ⟨⟨⟨_, hy⟩, hyn⟩, _⟩ => hrow (by omega))
    rw [BitVec.getLsbD_zero] at hbit
    cases hbit

/-- Where a sprite lands is decided by its coordinates, `I` and the bytes of its rows (R121). -/
theorem State.spriteLands_congr (hx : u.reg x = s.reg x) (hy : u.reg y = s.reg y) (hidx : u.idx = s.idx)
    (hbytes : ∀ k < n, u.byteAt (s.idx.toNat + k) = s.byteAt (s.idx.toNat + k)) (px py : Nat) :
    u.spriteLands x y n px py = s.spriteLands x y n px py := by
  rw [State.spriteLands, State.spriteLands, hx, hy, hidx]
  by_cases hrow : (s.reg y).toNat % 32 ≤ py ∧ py < (s.reg y).toNat % 32 + n
  case pos => rw [hbytes _ (by omega)]
  case neg => obtain h | h := not_and_or.mp hrow <;> simp [h]

/-! A draw that completes. -/

/-- A draw toggles the cells its sprite lands on (R121). -/
theorem State.drawn_toggles (s : State) (x y : RegNum) (n : Nat) (px : Fin 64) (py : Fin 32) :
    (s.setFb (s.drawn x y n).1).pixel px py = (s.pixel px py ^^ s.spriteLands x y n px.val py.val) := by
  rw [← State.covers_spriteBytes]
  exact State.drawn_pixel x y n px.val py

/-- A draw collides when its sprite lands on a cell that is set (R121). -/
theorem State.drawn_collides_iff (s : State) (x y : RegNum) (n : Nat) :
    (s.drawn x y n).2 = true ↔
      ∃ (px : Fin 64) (py : Fin 32), s.pixel px py = true ∧ s.spriteLands x y n px.val py.val = true := by
  simp only [← State.covers_spriteBytes]
  exact drawRows_hit ..

theorem flagByte_eq_one_iff (c : Bool) : flagByte c = 1#8 ↔ c = true := by
  cases c <;> decide

/-- Settles O42: a draw whose bytes are in memory sets the framebuffer and then `VF`, from what the sprite lands on. -/
theorem drawTogglesAndReportsCollision : Obligations.DrawTogglesAndReportsCollision := by
  unfold Obligations.DrawTogglesAndReportsCollision
  refine fun s x y n => ⟨fun hn hlast => ?fault, fun hin => ⟨_, exec_drw_of_inBounds ?inBounds,
    s.drawn_toggles x y n.val, ?flag, ?collision, fun _ hr => State.reg_setReg_other _ _ hr, rfl, rfl,
    ⟨rfl, fun _ => rfl⟩, ⟨rfl, rfl⟩, fun _ => rfl, sameRest_refl s⟩⟩
  case fault =>
    have hout : s.indexInBounds n.val = false := (s.indexInBounds_false_iff _).mpr ⟨by omega, by omega⟩
    exact exec_of_outOfBounds hout
  case inBounds => exact (s.indexInBounds_iff _).mpr hin
  case flag =>
    rw [State.reg_setReg_same]
    exact (flagByte_eq_zero_or_one _).symm
  case collision => rw [State.reg_setReg_same, flagByte_eq_one_iff, State.drawn_collides_iff]

/-! The same draw twice. -/

theorem State.pixel_congr (h : u.fb = t.fb) (px : Fin 64) (py : Fin 32) : u.pixel px py = t.pixel px py := by
  rw [State.pixel, h, State.pixel]

/-- An instruction that completes reaches no further through `I` than memory (R154). -/
theorem indexInBounds_of_exec_next {i : Instr} (h : exec i s = .next t) :
    s.indexInBounds (indexedLength i) = true := by
  rw [← Bool.not_eq_false]
  intro hout
  cases h.symm.trans (exec_of_outOfBounds hout)

/-- Settles O43: the sprite lands on the same cells both times, so they are toggled back; of those, the ones that were
clear at first are set when the second draw reaches them. -/
theorem drawTwiceRestores : Obligations.DrawTwiceRestores := by
  unfold Obligations.DrawTwiceRestores
  intro s t u x y n hdraw hfb hx hy hidx hbytes
  have hin : n.val = 0 ∨ s.idx.toNat + n.val ≤ 4096 := (s.indexInBounds_iff _).mp (indexInBounds_of_exec_next hdraw)
  obtain ⟨t', hdraw', hfirst, -⟩ := (drawTogglesAndReportsCollision s x y n).2 hin
  cases hdraw.symm.trans hdraw'
  obtain ⟨w, hw, hsecond, hflag, hhit, -⟩ := (drawTogglesAndReportsCollision u x y n).2 (hidx ▸ hin)
  have hlands := State.spriteLands_congr (n := n.val) hx hy hidx hbytes
  have hmid (px : Fin 64) (py : Fin 32) : u.pixel px py = (s.pixel px py ^^ s.spriteLands x y n.val px.val py.val) :=
    (State.pixel_congr hfb px py).trans (hfirst px py)
  have hcollides : w.reg vf = 1#8 ↔ ∃ (px : Fin 64) (py : Fin 32),
      s.pixel px py = false ∧ s.spriteLands x y n.val px.val py.val = true := by
    rw [hhit]
    refine exists_congr fun px => exists_congr fun py => ?_
    rw [hlands, hmid]
    refine and_congr_left fun hl => ?_
    rw [hl, Bool.xor_true, Bool.not_eq_true']
  refine ⟨w, hw, fun px py => ?restored, hflag, hcollides, fun hclear => ?clearFrame⟩
  case restored => rw [hsecond, hlands, hmid, Bool.xor_assoc, Bool.xor_self, Bool.xor_false]
  case clearFrame =>
    rw [hcollides]
    exact exists_congr fun px => exists_congr fun py => and_iff_right_of_imp (hclear px py)

end Sys2Proof.Machine
end

section
/-! The wait for a key (R133), and what a store through `I` leaves for a later load or a later fetch (R42, R146). -/

namespace Sys2Proof.Machine

variable {s t : State} {x : RegNum}

/-! The wait for a key. -/

/-- A pressed key below which none is pressed is the one LD Vx K finds (R133). -/
theorem State.firstKey_eq_of_lowest {k : Nat} (hk : k < 16) (hdown : s.key k = true)
    (hlow : ∀ j < k, s.key j = false) : s.firstKey = some k := by
  rw [State.firstKey, List.find?_range_eq_some]
  exact ⟨hdown, List.mem_range.mpr hk, fun j hj => by simp [hlow j hj]⟩

/-- Rolling back the advance of the fetch gives the `pc` before it (R81, R133). -/
theorem State.fetched_rollBack_pc (s : State) : s.fetched.rollBack.pc = s.pc :=
  BitVec.add_sub_cancel s.pc 2#16

/-- Settles O46: with a key pressed one register is written; with none `pc` alone is, back over the advance of the
fetch, so that the step leaves only the tick. -/
theorem waitForKey : Obligations.WaitForKey := by
  unfold Obligations.WaitForKey
  refine ⟨fun s x k hk hdown hlow => ?pressed, fun s x hnone => ?none, fun s x hs hd hnone => ?step⟩
  case pressed =>
    obtain ⟨t, he, hx, hframe⟩ :=
      exec_answers_of_setReg (exec_ldVxK_of_some (x := x) (State.firstKey_eq_of_lowest hk hdown hlow))
    exact ⟨t, he, by rw [hx, BitVec.toNat_ofNat, Nat.mod_eq_of_lt (by omega)], hframe⟩
  case none =>
    exact ⟨_, exec_ldVxK_of_none (s.firstKey_none.mpr hnone), rfl, onlyPc_setPc s _⟩
  case step =>
    exact ⟨_, step_of_exec_next hs hd (exec_ldVxK_fetched_of_noKey hnone), s.fetched_rollBack_pc, fun _ => rfl, rfl,
      ⟨rfl, fun _ => rfl⟩, fun _ _ => rfl, fun _ => rfl, rfl, State.endStep_dt_toNat _, State.endStep_st_toNat _⟩

/-! What a store leaves. -/

/-- A LD [I], Vx that completes reaches no further than memory, and each register stands at its place from `I` on
(R144). -/
theorem stored_of_exec_ldMemVx (hwf : Memory.wf s.params s.mem = true) (h : exec (.ldMemVx x) s = .next t) :
    s.idx.toNat + x.val ≤ 4095 ∧ ∀ k : RegNum, k ≤ x → t.byteAt (s.idx.toNat + k.val) = s.reg k := by
  obtain ⟨hfault, hstore⟩ := storeRegisters s x
  obtain hout | hin := Nat.lt_or_ge 4095 (s.idx.toNat + x.val)
  case inl => cases h.symm.trans (hfault hout)
  case inr =>
    obtain ⟨t', he, hstored, -⟩ := hstore hin hwf
    cases h.symm.trans he
    exact ⟨hin, hstored⟩

/-- Settles O52: the load reads from the same place the bytes that the store put there. -/
theorem storeThenLoadRestores : Obligations.StoreThenLoadRestores := by
  unfold Obligations.StoreThenLoadRestores
  intro s t u x hwf hstore hidx hbytes
  obtain ⟨hin, hstored⟩ := stored_of_exec_ldMemVx hwf hstore
  obtain ⟨w, hload, hloaded, habove, -⟩ := (loadRegisters u x).2 (hidx ▸ hin)
  refine ⟨w, hload, fun k hk => ?restored, habove⟩
  case restored => rw [hloaded k hk, hidx, hbytes k hk, hstored k hk]

/-- Settles O54: a fetch reads the two bytes from `pc` on, the first of them high, and the store put `V[0]` and `V[1]`
there. -/
theorem storedCodeIsFetched : Obligations.StoredCodeIsFetched := by
  unfold Obligations.StoredCodeIsFetched
  intro s t x hwf hx hstore
  obtain ⟨hin, hstored⟩ := stored_of_exec_ldMemVx hwf hstore
  refine ⟨?word, by omega⟩
  case word =>
    have hhigh : t.byteAt s.idx.toNat = s.reg 0 := hstored 0 (Fin.zero_le x)
    have hlow : t.byteAt (s.idx.toNat + 1) = s.reg 1 := hstored 1 hx
    rw [State.fetchWord, wordOfBytes_toNat, State.byteAt_setPc, State.byteAt_setPc, State.setPc_pc, hhigh, hlow]

/-- The address of a glyph does not wrap, `FONT_BASE` being at most 432 (R5, R142). -/
theorem State.glyphAddr_toNat (s : State) (b : Byte) :
    (s.glyphAddr b).toNat = s.params.fontBase.val + 5 * b.toNat := by
  have := s.params.fontBase.isLt
  have := b.isLt
  rw [State.glyphAddr, BitVec.toNat_ofNat, Nat.mod_eq_of_lt (by omega)]

/-- Settles O48: both set `I` alone, ADD I to a 16-bit sum. -/
theorem addIndexAndFontAddress : Obligations.AddIndexAndFontAddress := by
  unfold Obligations.AddIndexAndFontAddress
  refine fun s x => ⟨⟨s.setIdx (s.idx + zext16 (s.reg x)), rfl, ?sum, onlyIdx_setIdx s _⟩,
    s.setIdx (s.glyphAddr (s.reg x)), rfl, s.glyphAddr_toNat (s.reg x), onlyIdx_setIdx s _⟩
  case sum => rw [State.setIdx_idx, BitVec.toNat_add, zext16_toNat]

end Sys2Proof.Machine
end

section
/-! The step as a whole (spec/40): the instruction it runs, and every fault it can meet (R80, R151). -/

namespace Sys2Proof.Machine

variable {s : State} {i : Instr} {f : Fault}

/-- Settles O7: the word the step decodes is made of the bytes at `pc`, and what the step does besides the instruction
is the fetch before it and the tick after it. -/
theorem stepRunsDecodedInstruction : Obligations.StepRunsDecodedInstruction := by
  unfold Obligations.StepRunsDecodedInstruction
  refine fun s => ⟨fun f hf => ?faulted, step_of_pc_gt, fun i hs hd => ?mapped, fun w hs hd => ?unmapped⟩
  case faulted => simp only [step, hf]
  case mapped =>
    have hword : decodeWord s.fetchWord = some i := decode_eq_ok_iff.mp hd
    have hfetched : s.fetched = { s with
      ir := wordOfBytes (s.byteAt s.pc.toNat) (s.byteAt (s.pc.toNat + 1)), pc := s.pc + 2#16 } := rfl
    rw [step_of_fetch hs.1 (s.fetchInBounds_iff.mpr hs.2), runWord_of_mapped hword, hfetched]
    cases exec i _ <;> rfl
  case unmapped =>
    obtain ⟨hnone, rfl⟩ := decode_eq_unmapped_iff.mp hd
    exact step_of_unmapped hs hnone

/-! The faults of an instruction. -/

/-- An instruction faults exactly under the condition of its own fault (R152, R153, R154). -/
theorem exec_eq_fault_iff : exec i s = .fault f ↔
    (f = .stackOverflow ∧ s.sp.val = 16 ∧ ∃ nnn, i = .call nnn) ∨
    (f = .stackUnderflow ∧ s.sp.val = 0 ∧ ∃ ign, i = .ret ign) ∨
    (f = .indexOutOfBounds (max s.idx.toNat 4096) ∧ s.indexInBounds (indexedLength i) = false) := by
  constructor
  case mp =>
    intro h
    obtain ⟨t, he⟩ | ⟨he, hsp, hi⟩ | ⟨he, hsp, hi⟩ | ⟨he, hout⟩ := exec_answers i s <;> cases he.symm.trans h
    · exact .inl ⟨rfl, hsp, hi⟩
    · exact .inr (.inl ⟨rfl, hsp, hi⟩)
    · exact .inr (.inr ⟨rfl, hout⟩)
  case mpr =>
    rintro (⟨rfl, hsp, nnn, rfl⟩ | ⟨rfl, hsp, ign, rfl⟩ | ⟨rfl, hout⟩)
    · exact exec_call_of_full hsp
    · exact exec_ret_of_zero hsp
    · exact exec_of_outOfBounds hout

theorem exec_ne_refused (i : Instr) (s : State) (r : Refusal) : exec i s ≠ .refused r := by
  intro h
  obtain ⟨t, he⟩ | ⟨he, -⟩ | ⟨he, -⟩ | ⟨he, -⟩ := exec_answers i s <;> cases he.symm.trans h

/-! The faults of a step. -/

/-- A step that fetches a word faults exactly when the instruction of that word does: the no-op does not. -/
theorem step_eq_fault_iff_exec (hs : s.canFetch) :
    step s = .fault f ↔ ∃ i, decodeWord s.fetchWord = some i ∧ exec i s.fetched = .fault f := by
  constructor
  case mp =>
    intro h
    obtain ⟨-, ⟨hout, -⟩ | ⟨-, hexec⟩⟩ := step_fault_cases h
    · rw [s.fetchInBounds_iff.mpr hs.2] at hout
      cases hout
    · exact hexec
  case mpr => exact fun ⟨i, hd, he⟩ => step_of_exec_fault hs hd he

/-- A core that has not faulted has a step: it is never refused (R22, R80). -/
theorem step_ne_refused (hf : s.fault = none) (r : Refusal) : step s ≠ .refused r := by
  obtain hpc | hpc := Nat.lt_or_ge 0xFFE s.pc.toNat
  case inl =>
    rw [step_of_pc_gt hf hpc]
    exact nofun
  case inr =>
    cases hd : decodeWord s.fetchWord with
    | none =>
      rw [step_of_unmapped ⟨hf, hpc⟩ hd]
      exact nofun
    | some i =>
      rw [step_of_fetch hf (s.fetchInBounds_iff.mpr hpc), runWord_of_mapped hd]
      cases he : exec i s.fetched with
      | next u => exact nofun
      | fault f => exact nofun
      | refused r => cases exec_ne_refused i s.fetched r he

/-- Settles O10: the fetch faults on `pc` alone, and past it the faults are those of the fetched word's instruction. -/
theorem stepFaultsExactlyWhereListed : Obligations.StepFaultsExactlyWhereListed := by
  unfold Obligations.StepFaultsExactlyWhereListed
  refine ⟨fun s f hf => ?faults, fun s r hf => step_ne_refused hf r, fun _ => rfl, rfl, rfl, fun _ => rfl⟩
  obtain hpc | hpc := Nat.lt_or_ge 0xFFE s.pc.toNat
  case inl =>
    rw [step_of_pc_gt hf hpc]
    constructor
    · rintro ⟨⟩
      exact .inl ⟨hpc, rfl⟩
    · rintro (⟨-, rfl⟩ | ⟨hle, -⟩)
      · rfl
      · omega
  case inr =>
    simp only [step_eq_fault_iff_exec ⟨hf, hpc⟩, exec_eq_fault_iff, State.indexInBounds_false_iff]
    constructor
    · rintro ⟨i, hd, ⟨hf, hsp, nnn, rfl⟩ | ⟨hf, hsp, ign, rfl⟩ | ⟨hf, hout⟩⟩
      · exact .inr ⟨hpc, .inl ⟨hf, hsp, nnn, hd⟩⟩
      · exact .inr ⟨hpc, .inr (.inl ⟨hf, hsp, ign, hd⟩)⟩
      · exact .inr ⟨hpc, .inr (.inr ⟨hf, i, hd, hout⟩)⟩
    · rintro (⟨hgt, -⟩ | ⟨-, ⟨hf, hsp, nnn, hd⟩ | ⟨hf, hsp, ign, hd⟩ | ⟨hf, i, hd, hout⟩⟩)
      · omega
      · exact ⟨_, hd, .inl ⟨hf, hsp, nnn, rfl⟩⟩
      · exact ⟨_, hd, .inr (.inl ⟨hf, hsp, ign, rfl⟩)⟩
      · exact ⟨i, hd, .inr (.inr ⟨hf, hout⟩)⟩

end Sys2Proof.Machine
end

section
/-! What an instruction that completes has done, said once: the change it made to the state, by kind. Who writes what
(spec/10 sections 2 to 10) is read off the kinds. -/

namespace Sys2Proof.Machine

/-- The skips (R94 to R97, R130, R131). -/
def IsSkip (i : Instr) : Prop :=
  (∃ x a, i = .seKk x a) ∨ (∃ x a, i = .sneKk x a) ∨ (∃ x y a, i = .seReg x y a) ∨ (∃ x y a, i = .sneReg x y a) ∨
    (∃ x a, i = .skp x a) ∨ ∃ x a, i = .sknp x a

/-- The instructions that set `I` (R14). -/
def SetsIdx (i : Instr) : Prop := (∃ a, i = .ldI a) ∨ (∃ x, i = .addI x) ∨ ∃ x, i = .ldF x

/-- The instructions that store bytes (R20). -/
def StoresBytes (i : Instr) : Prop := (∃ x, i = .ldB x) ∨ ∃ x, i = .ldMemVx x

/-- The change that an instruction makes to the state, by kind. -/
inductive Effect : Instr → State → State → Prop
  /-- Registers that the instruction names are written. -/
  | regs {i s v} (hv : ∀ r : RegNum, writesReg i r = false → (s.setRegs v).reg r = s.reg r) : Effect i s (s.setRegs v)
  | jump {s nnn} : Effect (.jp nnn) s (s.setPc (addr16 nnn))
  | jumpV0 {s nnn} : Effect (.jpV0 nnn) s (s.setPc (addr16 nnn + zext16 (s.reg 0)))
  | skip {i s} (c : Bool) (hi : IsSkip i) : Effect i s (s.setPc (if c then s.pc + 2#16 else s.pc))
  | wait {s x} : Effect (.ldVxK x) s s.rollBack
  | ret {s ign} (j : Fin 16) : Effect (.ret ign) s (s.takeEntry j)
  | call {s nnn} (j : Fin 16) : Effect (.call nnn) s ((s.saveEntry j s.pc).setPc (addr16 nnn))
  | clear {s ign} : Effect (.cls ign) s (s.setFb clearFb)
  | draw {s x y n} (fb : Framebuffer) (c : Bool) : Effect (.drw x y n) s ((s.setFb fb).setReg vf (flagByte c))
  | setIdx {i s} (w : Word) (hi : SetsIdx i) : Effect i s (s.setIdx w)
  | setDt {s x} (b : Byte) : Effect (.ldDtVx x) s (s.setDt b)
  | setSt {s x} (b : Byte) : Effect (.ldStVx x) s (s.setSt b)
  | store {i s} (bs : List Byte) (hi : StoresBytes i) (hfit : s.idx.toNat + bs.length ≤ memSize) :
      Effect i s (s.setMem (Memory.writeBytes s.params s.mem s.idx.toNat bs))

variable {i : Instr} {s t : State}

theorem ne_of_not_writesReg {r x : RegNum} (hr : writesReg i r = false) (hx : writesReg i x = true) : r ≠ x := by
  rintro rfl
  cases hr.symm.trans hx

theorem Effect.setReg {x : RegNum} (b : Byte) (hx : writesReg i x = true) : Effect i s (s.setReg x b) :=
  .regs fun _ hr => s.reg_setReg_other b (ne_of_not_writesReg hr hx)

theorem Effect.writeFlagged {x : RegNum} (c : Bool) (b : Byte) (hx : writesReg i x = true)
    (hvf : writesReg i vf = true) : Effect i s (s.writeFlagged x c b) :=
  .regs fun r hr => (s.reg_writeFlagged x r c b).trans <| by
    rw [if_neg (ne_of_not_writesReg hr hx), if_neg (ne_of_not_writesReg hr hvf)]

/-- An instruction that completes has made one of the changes. -/
theorem exec_effect (h : exec i s = .next t) : Effect i s t := by
  have hin := indexInBounds_of_exec_next h
  cases i
  case cls => cases h; exact .clear
  case ret ign =>
    obtain hzero | hpos := Nat.eq_zero_or_pos s.sp.val
    · cases h.symm.trans (exec_ret_of_zero hzero)
    · have hj : s.sp.val = (⟨s.sp.val - 1, by omega⟩ : Fin 16).val + 1 := by simp only; omega
      cases h.symm.trans (exec_ret_of_sp hj)
      exact .ret _
  case call nnn =>
    obtain hfull | hroom := Nat.eq_or_lt_of_le (Nat.le_of_lt_succ s.sp.isLt)
    · cases h.symm.trans (exec_call_of_full hfull)
    · cases h.symm.trans (exec_call_of_sp (j := ⟨s.sp.val, hroom⟩) rfl)
      exact .call _
  case drw => cases h.symm.trans (exec_drw_of_inBounds hin); exact .draw _ _
  case ldVxK x =>
    cases hk : s.firstKey with
    | none => cases h.symm.trans (exec_ldVxK_of_none hk); exact .wait
    | some k => cases h.symm.trans (exec_ldVxK_of_some hk); exact .setReg _ (beq_self_eq_true x)
  case ldB x =>
    cases h.symm.trans (exec_ldB_of_inBounds hin)
    exact .store _ (.inl ⟨x, rfl⟩) (((s.indexInBounds_iff _).mp hin).resolve_left nofun)
  case ldMemVx x =>
    cases h.symm.trans (exec_ldMemVx_of_inBounds hin)
    refine .store _ (.inr ⟨x, rfl⟩) ?_
    rw [s.regsUpTo_length]
    exact ((s.indexInBounds_iff _).mp hin).resolve_left nofun
  case ldVxMem x =>
    cases h.symm.trans (exec_ldVxMem_of_inBounds hin)
    refine .regs fun r hr => ?_
    rw [s.reg_setRegs_loadRegs, if_neg (Nat.not_lt_of_le (not_le.mp (of_decide_eq_false hr)))]
  case jp => cases h; exact .jump
  case jpV0 => cases h; exact .jumpV0
  case seKk | sneKk | seReg | sneReg | skp | sknp =>
    cases h
    rw [State.skipIf_eq]
    exact .skip _ (by simp [IsSkip])
  case ldI | addI | ldF => cases h; exact .setIdx _ (by simp [SetsIdx])
  case ldDtVx => cases h; exact .setDt _
  case ldStVx => cases h; exact .setSt _
  case addReg x y | subReg x y | subnReg x y | shr x y | shl x y =>
    cases h; exact .writeFlagged _ _ (by simp [writesReg]) (by simp [writesReg])
  all_goals cases h; exact .setReg _ (beq_self_eq_true _)

/-! Who writes what. -/

theorem exec_sameRest (h : exec i s = .next t) : SameRest s t := by
  cases exec_effect h with
  | _ => exact sameRest_refl s

theorem exec_reg (h : exec i s = .next t) (r : RegNum) (hr : writesReg i r = false) : t.reg r = s.reg r := by
  cases exec_effect h with
  | regs hv => exact hv r hr
  | draw fb c => exact State.reg_setReg_other _ _ (of_decide_eq_false hr)
  | _ => rfl

theorem exec_sameStack (h : exec i s = .next t) (hret : ∀ ign, i ≠ .ret ign) (hcall : ∀ nnn, i ≠ .call nnn) :
    SameStack s t := by
  cases exec_effect h with
  | ret => exact absurd rfl (hret _)
  | call => exact absurd rfl (hcall _)
  | _ => exact ⟨rfl, fun _ => rfl⟩

theorem exec_sameFb (h : exec i s = .next t) (hcls : ∀ ign, i ≠ .cls ign) (hdrw : ∀ x y n, i ≠ .drw x y n) :
    SameFb s t := by
  cases exec_effect h with
  | clear => exact absurd rfl (hcls _)
  | draw => exact absurd rfl (hdrw _ _ _)
  | _ => exact fun _ _ => rfl

theorem exec_sameMem (h : exec i s = .next t) (hb : ∀ x, i ≠ .ldB x) (hst : ∀ x, i ≠ .ldMemVx x) : SameMem s t := by
  cases exec_effect h with
  | store bs hi hfit =>
    obtain ⟨x, rfl⟩ | ⟨x, rfl⟩ := hi
    · exact absurd rfl (hb x)
    · exact absurd rfl (hst x)
  | _ => exact fun _ => rfl

theorem exec_idx (h : exec i s = .next t) (hld : ∀ nnn, i ≠ .ldI nnn) (hadd : ∀ x, i ≠ .addI x)
    (hf : ∀ x, i ≠ .ldF x) : t.idx = s.idx := by
  cases exec_effect h with
  | setIdx w hi =>
    obtain ⟨a, rfl⟩ | ⟨x, rfl⟩ | ⟨x, rfl⟩ := hi
    · exact absurd rfl (hld a)
    · exact absurd rfl (hadd x)
    · exact absurd rfl (hf x)
  | _ => rfl

theorem exec_dt (h : exec i s = .next t) (hdt : ∀ x, i ≠ .ldDtVx x) : t.dt = s.dt := by
  cases exec_effect h with
  | setDt => exact absurd rfl (hdt _)
  | _ => rfl

theorem exec_st (h : exec i s = .next t) (hst : ∀ x, i ≠ .ldStVx x) : t.st = s.st := by
  cases exec_effect h with
  | setSt => exact absurd rfl (hst _)
  | _ => rfl

theorem exec_pc (h : exec i s = .next t) (hret : ∀ a, i ≠ .ret a) (hjp : ∀ a, i ≠ .jp a) (hcall : ∀ a, i ≠ .call a)
    (hjpV0 : ∀ a, i ≠ .jpV0 a) (hseKk : ∀ x a, i ≠ .seKk x a) (hsneKk : ∀ x a, i ≠ .sneKk x a)
    (hseReg : ∀ x y a, i ≠ .seReg x y a) (hsneReg : ∀ x y a, i ≠ .sneReg x y a) (hskp : ∀ x a, i ≠ .skp x a)
    (hsknp : ∀ x a, i ≠ .sknp x a) (hwait : ∀ x, i ≠ .ldVxK x) : t.pc = s.pc := by
  cases exec_effect h with
  | ret => exact absurd rfl (hret _)
  | jump => exact absurd rfl (hjp _)
  | call => exact absurd rfl (hcall _)
  | jumpV0 => exact absurd rfl (hjpV0 _)
  | wait => exact absurd rfl (hwait _)
  | skip c hi =>
    obtain ⟨x, a, rfl⟩ | ⟨x, a, rfl⟩ | ⟨x, y, a, rfl⟩ | ⟨x, y, a, rfl⟩ | ⟨x, a, rfl⟩ | ⟨x, a, rfl⟩ := hi
    · exact absurd rfl (hseKk x a)
    · exact absurd rfl (hsneKk x a)
    · exact absurd rfl (hseReg x y a)
    · exact absurd rfl (hsneReg x y a)
    · exact absurd rfl (hskp x a)
    · exact absurd rfl (hsknp x a)
  | _ => rfl

/-- Settles O21: each part is left alone by every kind of change but those the statement names for it. -/
theorem onlyNamedInstructionsWrite : Obligations.OnlyNamedInstructionsWrite := by
  unfold Obligations.OnlyNamedInstructionsWrite
  exact fun i s t h => ⟨exec_sameRest h, exec_reg h, exec_sameStack h, exec_sameFb h, exec_sameMem h, exec_idx h,
    exec_dt h, exec_st h, exec_pc h⟩

/-- Settles O22: a flag is written before the result, so it stays unless `VF` is the destination; every instruction that
writes no flag leaves `VF` to the rule for an unnamed register. -/
theorem flagRegisterHoldsTheFlag : Obligations.FlagRegisterHoldsTheFlag := by
  unfold Obligations.FlagRegisterHoldsTheFlag
  refine ⟨fun s t x y hx => ?flags, fun s t y => ?results, fun s t x y n h => ?draw, fun i s t hi h => exec_reg h vf hi⟩
  case flags =>
    refine ⟨?_, ?_, ?_, ?_, ?_⟩ <;> rintro ⟨⟩ <;> rw [State.reg_writeFlagged_vf _ _ _ hx]
    · exact flagByte_carry _ _
    · exact flagByte_notBorrow _ _
    · exact flagByte_notBorrow _ _
    · rfl
    · rfl
  case results =>
    refine ⟨?_, ?_, ?_, ?_, ?_⟩ <;> rintro ⟨⟩ <;> rw [State.reg_writeFlagged_same]
    · exact sum8_toNat _ _
    · exact diff8_toNat _ _
    · exact diff8_toNat _ _
    · exact half8_toNat _
    · exact double8_toNat _
  case draw =>
    cases h.symm.trans (exec_drw_of_inBounds (indexInBounds_of_exec_next h))
    rw [State.reg_setReg_same]
    exact flagByte_eq_zero_or_one _

end Sys2Proof.Machine
end

section
/-! The invariant (spec/10 sections 3 and 11): every kind of change keeps each of its parts, and so do the phases around
the instruction and the operations of the host. -/

namespace Sys2Proof.Machine

variable {i : Instr} {s t : State}

/-! What an instruction keeps. -/

theorem exec_memWf (h : exec i s = .next t) (hwf : Memory.wf s.params s.mem = true) :
    Memory.wf t.params t.mem = true := by
  cases exec_effect h with
  | store bs hi hfit => exact Memory.writeBytes_wf hfit hwf
  | _ => exact hwf

/-- After a fetch in bounds, what is saved on the call stack is the advanced `pc`, at most 0x1000 (R90, R93). -/
theorem exec_stack_le (h : exec i s = .next t) (hpc : s.pc.toNat ≤ 0x1000)
    (hstack : ∀ j : Fin 16, (s.stackAt j).toNat ≤ 0x1000) (k : Fin 16) : (t.stackAt k).toNat ≤ 0x1000 := by
  cases exec_effect h with
  | call j =>
    rw [State.stackAt_setPc, State.stackAt_saveEntry]
    split
    · exact hpc
    · exact hstack k
  | _ => exact hstack k

/-- Of all that can come to stand in `pc` the target of JP V0 reaches furthest (R13, R92). -/
theorem exec_pc_le (h : exec i s = .next t) (hpc : 2 ≤ s.pc.toNat ∧ s.pc.toNat ≤ 0x1000)
    (hstack : ∀ j : Fin 16, (s.stackAt j).toNat ≤ 0x1000) : t.pc.toNat ≤ 0x10FE := by
  obtain ⟨hlow, hhigh⟩ := hpc
  cases exec_effect h with
  | @jump _ nnn | @call _ nnn =>
    have := nnn.isLt
    rw [State.setPc_pc, addr16_toNat]
    omega
  | @jumpV0 _ nnn =>
    have := nnn.isLt
    have := (s.reg 0).isLt
    rw [State.setPc_pc, addr16_add_zext16_toNat]
    omega
  | skip c =>
    rw [State.setPc_pc]
    cases c with
    | false => exact hhigh.trans (by omega)
    | true => simp only [if_true, BitVec.toNat_add, BitVec.toNat_ofNat]; omega
  | wait =>
    have hback : s.rollBack.pc.toNat = s.pc.toNat - 2 := by
      simp only [State.rollBack, State.setPc_pc, BitVec.toNat_sub, BitVec.toNat_ofNat]
      omega
    omega
  | ret j => exact (hstack j).trans (by omega)
  | _ => exact hhigh.trans (by omega)

/-- An instruction run after a fetch in bounds keeps the invariant. -/
theorem exec_keeps_inv (h : exec i s = .next t) (hinv : s.Inv) (hpc : 2 ≤ s.pc.toNat ∧ s.pc.toNat ≤ 0x1000) :
    t.Inv := by
  obtain ⟨hfault, hwf, -, hstack⟩ := hinv
  obtain ⟨-, -, hfault', -⟩ := exec_sameRest h
  exact ⟨hfault'.trans hfault, exec_memWf h hwf, exec_pc_le h hpc hstack, exec_stack_le h hpc.2 hstack⟩

/-! What the phases of a step keep. -/

theorem State.fetched_inv (hinv : s.Inv) (hpc : s.pc.toNat ≤ 0xFFE) : s.fetched.Inv := by
  obtain ⟨hfault, hwf, -, hstack⟩ := hinv
  refine ⟨hfault, hwf, ?_, hstack⟩
  rw [s.fetched_pc_toNat hpc]
  omega

theorem State.endStep_inv (hinv : s.Inv) : s.endStep.Inv := hinv

/-- Settles O11: the fetch leaves `pc` from 2 to 0x1000, from where each instruction keeps the invariant. -/
theorem stepKeepsInvariant : Obligations.StepKeepsInvariant := by
  unfold Obligations.StepKeepsInvariant
  intro s t hinv h
  obtain ⟨-, hbounds, u, rfl, hu⟩ := step_next_cases h
  have hpc := s.fetchInBounds_iff.mp hbounds
  have hfetched := State.fetched_inv hinv hpc
  have hadv := s.fetched_pc_toNat hpc
  obtain ⟨i, -, he⟩ | ⟨-, rfl⟩ := hu
  · exact State.endStep_inv (exec_keeps_inv he hfetched (by omega))
  · exact State.endStep_inv hfetched

/-! What `Reset` leaves. -/

section Reset
variable (p : Config.Params)

theorem State.reg_resetWith (r : RegNum) : (State.resetWith p).reg r = 0#8 := by
  simp [State.reg, State.resetWith]

theorem State.stackAt_resetWith (j : Fin 16) : (State.resetWith p).stackAt j = 0#16 := by
  simp [State.stackAt, State.resetWith]

theorem State.key_resetWith (k : Nat) : (State.resetWith p).key k = false := BitVec.getLsbD_zero

/-- Memory that nothing has written reads as its reset contents (R170, log 20). -/
theorem State.byteAt_resetWith (a : Nat) : (State.resetWith p).byteAt a = resetByte p a := rfl

theorem resetByte_font (j : Fin 80) : resetByte p (p.fontBase.val + j.val) = p.font[j] := by
  simp [resetByte]

theorem resetByte_outside {a : Nat} (ha : a < p.fontBase.val ∨ p.fontBase.val + 80 ≤ a) : resetByte p a = 0#8 := by
  rw [resetByte, if_neg (by omega)]
  rfl

end Reset

/-! The operations of the host. -/

/-- Settles O12: the reset state lists no memory, starts at 0x200 and has zeros on the call stack. -/
theorem resetMeetsInvariant : Obligations.ResetMeetsInvariant := by
  unfold Obligations.ResetMeetsInvariant
  intro p
  refine ⟨rfl, State.resetWith_wf p, ?pc, fun j => ?stack⟩
  case pc => change progBase.toNat ≤ 0x10FE; decide
  case stack => rw [State.stackAt_resetWith]; exact Nat.zero_le _

theorem State.resetAgain_inv (s : State) : s.resetAgain.Inv := resetMeetsInvariant s.params

theorem State.loadImage_inv {image : List Byte} (hl : image.length ≤ progMax) (hinv : s.Inv) :
    (s.loadImage image).Inv := by
  obtain ⟨hfault, hwf, hpc, hstack⟩ := hinv
  exact ⟨hfault, State.loadImage_wf hl hwf, hpc, hstack⟩

theorem State.setKeys_inv (k : BitVec 16) (hinv : s.Inv) : (s.setKeys k).Inv := hinv

theorem State.supplyRnd_inv (r : Byte) (hinv : s.Inv) : (s.supplyRnd r).Inv := hinv

section Apply
variable {any : State} {c c' : Session}

/-- A `Load` that is applied has an image that fits, comes first after `Reset`, and copies the image (R32). -/
theorem Session.apply_load_ok {image : List Byte} (h : Session.apply any (.load image) c = .ok c') :
    image.length ≤ progMax ∧ c.phase = .constructed ∧ c' = ⟨c.core.loadImage image, .loaded⟩ := by
  simp only [Session.apply] at h
  split at h
  · cases h
  · split at h
    · cases h; exact ⟨by omega, ‹_›, rfl⟩
    · cases h

/-- A `Step` that is applied is a step of the core, or sets its fault (R34, R156). -/
theorem Session.apply_step_ok {r : Byte} (h : Session.apply any (.step r) c = .ok c') :
    (∃ t, step (c.core.supplyRnd r) = .next t ∧ c' = ⟨t, .running⟩) ∨
      ∃ f, step (c.core.supplyRnd r) = .fault f ∧ c' = ⟨c.core.afterFault any f, .running⟩ := by
  simp only [Session.apply] at h
  split at h
  next t ht => cases h; exact .inl ⟨t, ht, rfl⟩
  next f hf => cases h; exact .inr ⟨f, hf, rfl⟩
  next => cases h

/-- Settles O13: `Reset` gives the invariant, a `Step` that completes keeps it and one that faults is excused, and the
other operations touch no part it speaks of but the memory, where an image that fits keeps it canonical. -/
theorem hostOperationsKeepInvariant : Obligations.HostOperationsKeepInvariant := by
  unfold Obligations.HostOperationsKeepInvariant
  intro any op c c' hinv h hfault'
  cases op with
  | reset => cases h; exact c.core.resetAgain_inv
  | load image =>
    obtain ⟨hl, -, rfl⟩ := Session.apply_load_ok h
    exact State.loadImage_inv hl (hinv hfault')
  | setKeys k => cases h; exact State.setKeys_inv k (hinv hfault')
  | step r =>
    obtain ⟨t, ht, rfl⟩ | ⟨f, -, rfl⟩ := Session.apply_step_ok h
    · obtain ⟨hfault, -⟩ := step_next_cases ht
      exact stepKeepsInvariant _ t (State.supplyRnd_inv r (hinv hfault)) ht
    · cases hfault'
  | inspect => cases h; exact hinv hfault'

/-- Settles O15: `Reset` asks for nothing of the session it is applied to. -/
theorem resetStartsASession : Obligations.ResetStartsASession := by
  unfold Obligations.ResetStartsASession
  exact fun any c => ⟨⟨c.core.resetAgain, .constructed⟩, rfl, rfl, rfl, rfl⟩

/-- Settles O17: `SetKeys` asks for nothing of the session and replaces the key latch. -/
theorem setKeysWritesTheLatch : Obligations.SetKeysWritesTheLatch := by
  unfold Obligations.SetKeysWritesTheLatch
  exact fun any k c => ⟨⟨c.core.setKeys k, c.phase⟩, rfl, fun _ _ => rfl, rfl, rfl⟩

/-- Settles O16: the image is stored from 0x200 on, where an image that fits stays in memory. -/
theorem loadCopiesTheImage : Obligations.LoadCopiesTheImage := by
  unfold Obligations.LoadCopiesTheImage
  refine fun any image c => ⟨fun hlong => ?tooLong, fun hfit hphase => ?late, fun hfit hphase hwf => ?copied⟩
  case tooLong => exact if_pos hlong
  case late => exact (if_neg (Nat.not_lt_of_le hfit)).trans (if_neg hphase)
  case copied =>
    refine ⟨⟨c.core.loadImage image, .loaded⟩, (if_neg (Nat.not_lt_of_le hfit)).trans (if_pos hphase), rfl,
      fun j hj => Memory.read_writeBytes_inside hj ?_ hwf, fun a ha => Memory.read_writeBytes_outside ha,
      onlyMem_setMem c.core _⟩
    have : progBase.toNat = 0x200 := rfl
    simp only [memSize]
    omega

theorem Session.apply_step_of_next {r : Byte} {t : State} (h : step (c.core.supplyRnd r) = .next t) :
    Session.apply any (.step r) c = .ok ⟨t, .running⟩ := by
  simp [Session.apply, h]

theorem Session.apply_step_of_fault {r : Byte} {f : Fault} (h : step (c.core.supplyRnd r) = .fault f) :
    Session.apply any (.step r) c = .ok ⟨c.core.afterFault any f, .running⟩ := by
  simp [Session.apply, h]

/-- A faulted core has no step (R22). -/
theorem Session.apply_step_of_faulted (r : Byte) (hf : c.core.fault ≠ none) :
    Session.apply any (.step r) c = .error .noStep := by
  obtain ⟨f, hf⟩ := Option.ne_none_iff_exists'.mp hf
  have hstep : step (c.core.supplyRnd r) = .refused (.coreFaulted f) := by simp [step, hf]
  simp [Session.apply, hstep]

/-- Settles O18: `Step` is the core's step with the byte supplied; no operation but `Reset` writes the `fault` field of
a faulted core, which has no step. -/
theorem onlyResetLeavesAFault : Obligations.OnlyResetLeavesAFault := by
  unfold Obligations.OnlyResetLeavesAFault
  refine ⟨fun any r c t ht => Session.apply_step_of_next ht, fun any r c f hf => ?fault,
    fun any r c => Session.apply_step_of_faulted r, fun _ _ => rfl, fun any op c c' h hfault hfault' => ?onlyReset⟩
  case fault => exact ⟨⟨c.core.afterFault any f, .running⟩, Session.apply_step_of_fault hf, rfl⟩
  case onlyReset =>
    cases op with
    | reset => rfl
    | load image =>
      obtain ⟨-, -, rfl⟩ := Session.apply_load_ok h
      exact absurd hfault' hfault
    | setKeys k => cases h; exact absurd hfault' hfault
    | step r => cases h.symm.trans (Session.apply_step_of_faulted r hfault)
    | inspect => cases h; exact absurd hfault' hfault

end Apply

/-- Settles O14: every part is written out in the reset state but memory, which reads as its reset contents. -/
theorem resetValues : Obligations.ResetValues := by
  unfold Obligations.ResetValues
  refine fun p => ⟨State.reg_resetWith p, rfl, rfl, State.stackAt_resetWith p, rfl, rfl, rfl,
    fun k _ => State.key_resetWith p k, fun x y => clearFb_getMsbD x y, rfl, rfl, fun j => ?font, fun a ha => ?zero⟩
  case font => rw [State.byteAt_resetWith, resetByte_font]
  case zero => rw [State.byteAt_resetWith, resetByte_outside p ha]

end Sys2Proof.Machine
end

section
/-! What no instruction reads: the sound timer and the random input but for one instruction each (spec/10 sections 6
and 11), and a register that the instruction's rule does not read (spec/10 section 2). -/

namespace Sys2Proof.Machine

variable {i : Instr} {s t : State} {e : Fault}

/-! The sound timer and the random input. -/

section Unread
variable (f : Byte → Byte) (g : Option Byte → Option Byte) (d : Nat → Nat)

/-- The state with another sound timer and another random input. -/
def State.withUnread (s : State) : State := { s with st := f s.st, rnd := g s.rnd, rndDraws := d s.rndDraws }

theorem State.withUnread_skipIf (s : State) (c : Bool) :
    (s.withUnread f g d).skipIf c = (s.skipIf c).withUnread f g d := by
  cases c <;> rfl

variable {f g d}

theorem withUnread_of_next (h : exec i s = .next t) (h' : exec i (s.withUnread f g d) = .next (t.withUnread f g d)) :
    exec i (s.withUnread f g d) = mapNext (·.withUnread f g d) (exec i s) := by
  rw [h, h', mapNext]

theorem withUnread_of_fault (h : exec i s = .fault e) (h' : exec i (s.withUnread f g d) = .fault e) :
    exec i (s.withUnread f g d) = mapNext (·.withUnread f g d) (exec i s) := by
  rw [h, h', mapNext]

/-- An instruction other than LD ST and RND neither reads nor writes the sound timer and the random input. -/
theorem exec_withUnread (hst : ∀ x, i ≠ .ldStVx x) (hrnd : ∀ x kk, i ≠ .rnd x kk) :
    exec i (s.withUnread f g d) = mapNext (·.withUnread f g d) (exec i s) := by
  cases hb : s.indexInBounds (indexedLength i) with
  | false => exact withUnread_of_fault (exec_of_outOfBounds hb) (exec_of_outOfBounds hb)
  | true =>
    cases i
    case ldStVx x => exact absurd rfl (hst x)
    case rnd x kk => exact absurd rfl (hrnd x kk)
    case ret ign =>
      by_cases h : s.sp.val = 0
      · exact withUnread_of_fault (exec_ret_of_zero h) (exec_ret_of_zero h)
      · exact withUnread_of_next (exec_ret_of_pos h) (exec_ret_of_pos h)
    case call nnn =>
      obtain h | h := Nat.eq_or_lt_of_le (Nat.le_of_lt_succ s.sp.isLt)
      · exact withUnread_of_fault (exec_call_of_full h) (exec_call_of_full h)
      · exact withUnread_of_next (exec_call_of_sp (j := ⟨s.sp.val, h⟩) rfl) (exec_call_of_sp (j := ⟨s.sp.val, h⟩) rfl)
    case ldVxK x =>
      cases hk : s.firstKey with
      | none => exact withUnread_of_next (exec_ldVxK_of_none hk) (exec_ldVxK_of_none hk)
      | some k => exact withUnread_of_next (exec_ldVxK_of_some hk) (exec_ldVxK_of_some hk)
    case drw => exact withUnread_of_next (exec_drw_of_inBounds hb) (exec_drw_of_inBounds hb)
    case ldB => exact withUnread_of_next (exec_ldB_of_inBounds hb) (exec_ldB_of_inBounds hb)
    case ldMemVx => exact withUnread_of_next (exec_ldMemVx_of_inBounds hb) (exec_ldMemVx_of_inBounds hb)
    case ldVxMem => exact withUnread_of_next (exec_ldVxMem_of_inBounds hb) (exec_ldVxMem_of_inBounds hb)
    case seKk | sneKk | seReg | sneReg | skp | sknp =>
      exact withUnread_of_next rfl (congrArg Host.Outcome.next (s.withUnread_skipIf f g d _))
    all_goals rfl

end Unread

/-- Settles O24: no instruction but RND reads the random input, LD ST included. -/
theorem onlyRandomReadsTheRandomByte : Obligations.OnlyRandomReadsTheRandomByte := by
  unfold Obligations.OnlyRandomReadsTheRandomByte
  intro i s r n hrnd
  by_cases hst : ∃ x, i = .ldStVx x
  case pos => obtain ⟨x, rfl⟩ := hst; rfl
  case neg => exact exec_withUnread (f := id) (g := fun _ => r) (d := fun _ => n) (not_exists.mp hst) hrnd

/-- Settles O25: no instruction reads the sound timer, RND included, and LD ST overwrites it. -/
theorem soundTimerDecidesNothing : Obligations.SoundTimerDecidesNothing := by
  unfold Obligations.SoundTimerDecidesNothing
  refine fun i s b => ⟨fun hst => ?unread, fun x hi => ?overwritten⟩
  case unread =>
    by_cases hrnd : ∃ x kk, i = .rnd x kk
    case pos => obtain ⟨x, kk, rfl⟩ := hrnd; rfl
    case neg =>
      exact exec_withUnread (f := fun _ => b) (g := id) (d := id) hst fun x kk h => hrnd ⟨x, kk, h⟩
  case overwritten => subst hi; rfl

/-! A register that is not read. -/

variable {r : RegNum} {b : Byte}

/-- The outcomes of one instruction that differ at most in what register `r` holds. -/
def AgreeBut (r : RegNum) : Result → Result → Prop
  | .next t, .next u => ∃ c, u = t.setReg r c
  | .fault e, .fault e' => e = e'
  | .refused e, .refused e' => e = e'
  | _, _ => False

theorem agreeBut_of_next {c : Byte} (h : exec i s = .next t) (h' : exec i (s.setReg r b) = .next (t.setReg r c)) :
    AgreeBut r (exec i s) (exec i (s.setReg r b)) := by
  rw [h, h']
  exact ⟨c, rfl⟩

theorem agreeBut_of_fault (h : exec i s = .fault e) (h' : exec i (s.setReg r b) = .fault e) :
    AgreeBut r (exec i s) (exec i (s.setReg r b)) := by
  rw [h, h']
  rfl

theorem State.reg_setReg_of_unread {x : RegNum} (s : State) (b : Byte) (hr : readsReg i r = false)
    (hx : readsReg i x = true) : (s.setReg r b).reg x = s.reg x := by
  refine s.reg_setReg_other b ?_
  rintro rfl
  cases hr.symm.trans hx

theorem State.reg_setReg_of_two_unread {x y : RegNum} (s : State) (b : Byte) (hr : readsReg i r = false)
    (hi : ∀ q, readsReg i q = (q == x || q == y)) :
    (s.setReg r b).reg x = s.reg x ∧ (s.setReg r b).reg y = s.reg y :=
  ⟨s.reg_setReg_of_unread b hr (by simp [hi]), s.reg_setReg_of_unread b hr (by simp [hi])⟩

/-- A write to a register after a write to `r` is the write to the register, then one to `r`. -/
theorem State.setReg_setReg_agree (s : State) (r x : RegNum) (b v : Byte) :
    ∃ c, (s.setReg r b).setReg x v = (s.setReg x v).setReg r c := by
  by_cases h : r = x
  · subst h
    exact ⟨v, by rw [State.setReg_setReg_same, State.setReg_setReg_same]⟩
  · exact ⟨b, s.setReg_comm b v h⟩

theorem State.writeFlagged_setReg_agree (s : State) (r x : RegNum) (b v : Byte) (f : Bool) :
    ∃ c, (s.setReg r b).writeFlagged x f v = (s.writeFlagged x f v).setReg r c := by
  obtain ⟨c, hc⟩ := s.setReg_setReg_agree r vf b (flagByte f)
  obtain ⟨c', hc'⟩ := (s.setReg vf (flagByte f)).setReg_setReg_agree r x c v
  exact ⟨c', by rw [State.writeFlagged, State.writeFlagged, hc, hc']⟩

theorem State.skipIf_setReg_agree (s : State) (r : RegNum) (b : Byte) (k : Bool) :
    ∃ c, (s.setReg r b).skipIf k = (s.skipIf k).setReg r c :=
  ⟨b, by cases k <;> rfl⟩

theorem loadRegs_set (v : Vector Byte 16) (r : RegNum) (b : Byte) (bytes : List Byte) :
    loadRegs (v.set r b) bytes = (loadRegs v bytes).set r (bytes.getD r.val b) := by
  ext k hk : 1
  have hload (w : Vector Byte 16) : (loadRegs w bytes)[k] = bytes.getD k w[k] := loadRegs_getElem w bytes ⟨k, hk⟩
  rw [hload, Vector.getElem_set, Vector.getElem_set, hload]
  split
  next hrk => rw [hrk]
  next => rfl

/-- The registers that are not read play no part in what is stored (R144). -/
theorem State.regsUpTo_setReg_of_lt (s : State) {x : RegNum} (b : Byte) (h : x < r) :
    (s.setReg r b).regsUpTo x = s.regsUpTo x := by
  refine List.ext_getElem (by simp) fun k hk hk' => ?_
  rw [State.regsUpTo_getElem, State.regsUpTo_getElem]
  rw [State.regsUpTo_length] at hk'
  have hlt : x.val < r.val := h
  exact s.reg_setReg_other b fun hkr => absurd (congrArg Fin.val hkr) (Nat.ne_of_lt (show k < r.val by omega))

/-- An instruction that completes with one register written, with a value that no register plays a part in. -/
theorem agreeBut_of_setReg {x : RegNum} {v : Byte} (h : exec i s = .next (s.setReg x v))
    (h' : exec i (s.setReg r b) = .next ((s.setReg r b).setReg x v)) :
    AgreeBut r (exec i s) (exec i (s.setReg r b)) := by
  obtain ⟨c, hc⟩ := s.setReg_setReg_agree r x b v
  exact agreeBut_of_next h (h'.trans (congrArg _ hc))

theorem drw_agreeBut {x y : RegNum} {n : Fin 16} (hr : readsReg (.drw x y n) r = false)
    (hb : s.indexInBounds n.val = true) : AgreeBut r (exec (.drw x y n) s) (exec (.drw x y n) (s.setReg r b)) := by
  obtain ⟨hx, hy⟩ := s.reg_setReg_of_two_unread b hr fun _ => rfl
  have hdrawn : (s.setReg r b).drawn x y n.val = s.drawn x y n.val := by
    rw [State.drawn, hx, hy]
    rfl
  obtain ⟨c, hc⟩ := (s.setFb (s.drawn x y n.val).1).setReg_setReg_agree r vf b (flagByte (s.drawn x y n.val).2)
  refine agreeBut_of_next (c := c) (exec_drw_of_inBounds hb) ((exec_drw_of_inBounds (s := s.setReg r b) hb).trans ?_)
  rw [hdrawn]
  exact congrArg _ hc

theorem ldVxMem_agreeBut {x : RegNum} (hb : s.indexInBounds (x.val + 1) = true) :
    AgreeBut r (exec (.ldVxMem x) s) (exec (.ldVxMem x) (s.setReg r b)) := by
  rw [exec_ldVxMem_of_inBounds hb, exec_ldVxMem_of_inBounds (s := s.setReg r b) hb, State.setReg_v, loadRegs_set]
  exact ⟨_, rfl⟩

/-- Two states that differ at most in a register an instruction's rule does not read agree but for it afterwards. -/
theorem exec_agreeBut (hr : readsReg i r = false) : AgreeBut r (exec i s) (exec i (s.setReg r b)) := by
  cases hb : s.indexInBounds (indexedLength i) with
  | false => exact agreeBut_of_fault (exec_of_outOfBounds hb) (exec_of_outOfBounds hb)
  | true =>
    cases i
    case cls | jp | ldI => exact agreeBut_of_next (c := b) rfl rfl
    case ret ign =>
      by_cases h : s.sp.val = 0
      · exact agreeBut_of_fault (exec_ret_of_zero h) (exec_ret_of_zero h)
      · exact agreeBut_of_next (c := b) (exec_ret_of_pos h) (exec_ret_of_pos (s := s.setReg r b) h)
    case call nnn =>
      obtain h | h := Nat.eq_or_lt_of_le (Nat.le_of_lt_succ s.sp.isLt)
      · exact agreeBut_of_fault (exec_call_of_full h) (exec_call_of_full h)
      · exact agreeBut_of_next (c := b) (exec_call_of_sp (j := ⟨s.sp.val, h⟩) rfl)
          (exec_call_of_sp (s := s.setReg r b) (j := ⟨s.sp.val, h⟩) rfl)
    case ldKk | ldVxDt | rnd => exact agreeBut_of_setReg rfl rfl
    case ldVxK x =>
      cases hk : s.firstKey with
      | none => exact agreeBut_of_next (c := b) (exec_ldVxK_of_none hk) (exec_ldVxK_of_none (s := s.setReg r b) hk)
      | some k => exact agreeBut_of_setReg (exec_ldVxK_of_some hk) (exec_ldVxK_of_some hk)
    case seKk x _ | sneKk x _ | skp x _ | sknp x _ =>
      have hx := s.reg_setReg_of_unread b hr (beq_self_eq_true x)
      simp only [exec, execSeKk, execSneKk, execSkp, execSknp, hx]
      exact s.skipIf_setReg_agree r b _
    case seReg x y _ | sneReg x y _ =>
      obtain ⟨hx, hy⟩ := s.reg_setReg_of_two_unread b hr fun _ => rfl
      simp only [exec, execSeReg, execSneReg, hx, hy]
      exact s.skipIf_setReg_agree r b _
    case ldReg _ x | addKk x _ =>
      have hx := s.reg_setReg_of_unread b hr (beq_self_eq_true x)
      simp only [exec, execLdReg, execAddKk, hx]
      exact s.setReg_setReg_agree r _ b _
    case orReg x y | andReg x y | xorReg x y =>
      obtain ⟨hx, hy⟩ := s.reg_setReg_of_two_unread b hr fun _ => rfl
      simp only [exec, execOrReg, execAndReg, execXorReg, hx, hy]
      exact s.setReg_setReg_agree r x b _
    case addReg x y | subReg x y | subnReg x y =>
      obtain ⟨hx, hy⟩ := s.reg_setReg_of_two_unread b hr fun _ => rfl
      simp only [exec, execAddReg, execSubReg, execSubnReg, hx, hy]
      exact s.writeFlagged_setReg_agree r x b _ _
    case shr x _ | shl x _ =>
      have hx := s.reg_setReg_of_unread b hr (beq_self_eq_true x)
      simp only [exec, execShr, execShl, hx]
      exact s.writeFlagged_setReg_agree r x b _ _
    case addI x | ldF x | ldDtVx x | ldStVx x =>
      have hx := s.reg_setReg_of_unread b hr (beq_self_eq_true x)
      simp only [exec, execAddI, execLdF, execLdDtVx, execLdStVx, hx]
      exact ⟨b, rfl⟩
    case jpV0 =>
      have h0 := s.reg_setReg_of_unread b hr (beq_self_eq_true 0)
      simp only [exec, execJpV0, h0]
      exact ⟨b, rfl⟩
    case drw x y n => exact drw_agreeBut hr hb
    case ldVxMem x => exact ldVxMem_agreeBut hb
    case ldB x =>
      refine agreeBut_of_next (c := b) (exec_ldB_of_inBounds hb)
        ((exec_ldB_of_inBounds (s := s.setReg r b) hb).trans ?_)
      rw [s.reg_setReg_of_unread b hr (beq_self_eq_true x)]
      rfl
    case ldMemVx x =>
      refine agreeBut_of_next (c := b) (exec_ldMemVx_of_inBounds hb)
        ((exec_ldMemVx_of_inBounds (s := s.setReg r b) hb).trans ?_)
      rw [s.regsUpTo_setReg_of_lt b (not_le.mp (of_decide_eq_false hr))]
      rfl

/-- Settles O23: the outcomes differ at most in the register that is not read. -/
theorem unreadRegisterHasNoInfluence : Obligations.UnreadRegisterHasNoInfluence := by
  unfold Obligations.UnreadRegisterHasNoInfluence
  intro i s r b hr
  have h := exec_agreeBut (s := s) (b := b) hr
  cases he : exec i s <;> cases he' : exec i (s.setReg r b) <;> rw [he, he'] at h
  case next.next t u => obtain ⟨c, rfl⟩ := h; exact onlyReg_setReg t r c
  all_goals exact h

end Sys2Proof.Machine
end

section
/-! The signal-level form of the host interface (R36): a request on an edge is a host operation. -/

namespace Sys2Proof.Machine

variable {cycles : Nat} {any : State} {b : Block} {c : Session} {r : Byte}

/-! A step on the signals. -/

theorem Block.edge_stepWith (h : b.running = none) :
    b.edge cycles any (Pins.stepWith r) = b.acceptStep cycles any r := by
  rw [Block.edge_of_not_busy h]
  rfl

theorem Block.edges_singleton (p : Pins) (b : Block) : Block.edges cycles any [p] b = b.edge cycles any p := by
  rw [Block.edges]
  cases b.edge cycles any p <;> rfl

/-- Edges that come before the last one of a step leave the session as it is (R36). -/
theorem Block.edges_of_busy {ps : List Pins} {n : Nat} (hps : ∀ p ∈ ps, p.rst = false) (hn : ps.length ≤ n) :
    Block.edges cycles any ps ⟨c, some ⟨r, n⟩⟩ = .ok ⟨c, some ⟨r, n - ps.length⟩⟩ := by
  induction ps generalizing n with
  | nil => rfl
  | cons p ps ih =>
    obtain ⟨m, rfl⟩ : ∃ m, n = m + 1 := Nat.exists_eq_succ_of_ne_zero (by simp at hn; omega)
    rw [List.length_cons, Nat.add_le_add_iff_right] at hn
    obtain ⟨hp, hps⟩ := List.forall_mem_cons.mp hps
    rw [Block.edges, Block.edge_of_busy hp]
    simp only
    rw [ih hps hn, List.length_cons, Nat.add_sub_add_right]

/-- As many edges as a step takes are the host's `Step` (R36, R34). -/
theorem Block.edges_to_last {ps : List Pins} {n : Nat} (hps : ∀ p ∈ ps, p.rst = false) (hn : ps.length = n + 1) :
    Block.edges cycles any ps ⟨c, some ⟨r, n⟩⟩ = (⟨c, none⟩ : Block).host any (.step r) := by
  induction ps generalizing n with
  | nil => cases hn
  | cons p ps ih =>
    obtain ⟨hp, hps⟩ := List.forall_mem_cons.mp hps
    cases n with
    | zero =>
      obtain rfl : ps = [] := by simpa using hn
      rw [Block.edges_singleton, Block.edge_last hp]
      rfl
    | succ n =>
      rw [Block.edges, Block.edge_of_busy hp]
      exact ih hps (by simpa using hn)

/-- Settles O19: the accepting edge starts the step, the edges before the last one wait, and the last one is the host's
`Step`. -/
theorem signalStepIsAHostStep : Obligations.SignalStepIsAHostStep := by
  unfold Obligations.SignalStepIsAHostStep
  intro cycles any b r ps hidle hfault hlen hps
  suffices h : (∀ n < cycles, ∃ d, Block.edges cycles any (Pins.stepWith r :: ps.take n) b = .ok d ∧ d.busy = true ∧
      d.session = b.session) ∧ Block.edges cycles any (Pins.stepWith r :: ps) b = b.host any (.step r) from h
  cases cycles with
  | zero =>
    obtain rfl : ps = [] := List.length_eq_zero_iff.mp hlen
    refine ⟨nofun, ?now⟩
    case now =>
      rw [Block.edges_singleton, Block.edge_stepWith hidle]
      rfl
  | succ m =>
    have hstart (qs : List Pins) : Block.edges (m + 1) any (Pins.stepWith r :: qs) b =
        Block.edges (m + 1) any qs ⟨b.session, some ⟨r, m⟩⟩ := by
      rw [Block.edges, Block.edge_stepWith hidle, Block.acceptStep, hfault]
      rfl
    refine ⟨fun n hn => ⟨_, (hstart _).trans (Block.edges_of_busy ?quiet ?short), rfl, rfl⟩,
      (hstart ps).trans (Block.edges_to_last hps hlen)⟩
    case quiet => exact fun p hp => hps p (List.mem_of_mem_take hp)
    case short => rw [List.length_take]; omega

/-! The other requests. -/

theorem Block.edge_writeKeys (h : b.running = none) (k : BitVec 16) :
    b.edge cycles any (Pins.writeKeys k) = .ok ⟨⟨b.session.core.setKeys k, b.session.phase⟩, none⟩ := by
  rw [Block.edge_of_not_busy h]
  rfl

theorem Block.edge_reset (h : b.running = none) :
    b.edge cycles any Pins.reset = .ok ⟨⟨b.session.core.resetAgain, .constructed⟩, none⟩ := by
  rw [Block.edge_of_not_busy h]
  rfl

section BeforeFirstStep
variable (h : b.running = none) (hph : b.session.phase ≠ .running) (a : BitVec 12) (v : Byte)
include h hph

theorem Block.edge_loadByte : b.edge cycles any (Pins.loadByte a v) =
    if a.toNat < 0x200 then .error .loadBelowProgram else .ok (b.loadOne a v) := by
  rw [Block.edge_of_not_busy h, Pins.accepted_of_ne_running _ hph]
  rfl

/-- `keys_we` and `ld_en` on one edge (log 23). -/
theorem Block.edge_loadByte_writeKeys (k : BitVec 16) :
    b.edge cycles any { Pins.loadByte a v with keysWe := true, keys := k } =
      if a.toNat < 0x200 then .error .loadBelowProgram
      else .ok ((⟨⟨b.session.core.setKeys k, b.session.phase⟩, none⟩ : Block).loadOne a v) := by
  rw [Block.edge_of_not_busy h, Pins.accepted_of_ne_running _ hph]
  rfl

end BeforeFirstStep

/-- Bytes loaded one an edge from `a` on leave memory as storing them at once does (R32, R36). -/
theorem Block.edges_loadBytes {image : List Byte} {a : Nat} (h : b.running = none) (hph : b.session.phase ≠ .running)
    (ha : 0x200 ≤ a) (hfit : a + image.length ≤ 4096) :
    ∃ d, Block.edges cycles any (image.mapIdx fun j v => Pins.loadByte (BitVec.ofNat 12 (a + j)) v) b = .ok d ∧
      d.session.core = b.session.core.setMem
        (Memory.writeBytes b.session.core.params b.session.core.mem a image) ∧ d.running = none := by
  induction image generalizing a b with
  | nil => exact ⟨b, rfl, rfl, h⟩
  | cons v image ih =>
    rw [List.length_cons] at hfit
    have haddr : (BitVec.ofNat 12 a).toNat = a := by rw [BitVec.toNat_ofNat]; omega
    have hfirst : b.edge cycles any (Pins.loadByte (BitVec.ofNat 12 a) v) = .ok (b.loadOne (BitVec.ofNat 12 a) v) := by
      rw [Block.edge_loadByte h hph, if_neg (by omega)]
    obtain ⟨d, hd, hcore, hidle⟩ :=
      ih (b := b.loadOne (BitVec.ofNat 12 a) v) (a := a + 1) rfl nofun (by omega) (by omega)
    refine ⟨d, ?edges, ?core, hidle⟩
    case edges =>
      simp only [Nat.add_assoc, Nat.add_comm 1] at hd
      simp only [List.mapIdx_cons, Nat.add_zero, Block.edges, hfirst]
      exact hd
    case core =>
      rw [hcore, Block.loadOne, haddr]
      rfl

/-- Settles O20: each request is accepted as the host operation it stands for; keys and a byte write different parts,
and after the first step `ld_en` is dropped before the requests are served. -/
theorem signalRequestsAreHostOperations : Obligations.SignalRequestsAreHostOperations := by
  unfold Obligations.SignalRequestsAreHostOperations
  refine ⟨fun cycles any b image h hph hfit => ?load, fun cycles any b k h => ⟨_, rfl, Block.edge_writeKeys h k⟩,
    fun cycles any b h => ⟨_, rfl, Block.edge_reset h⟩, fun cycles any b k a v h hph => ?both,
    fun cycles any b a v h hph => ?lateByte, fun cycles any b p h hph => ?lateRequest⟩
  case load =>
    obtain ⟨d, hd, hcore, hidle⟩ :=
      Block.edges_loadBytes (cycles := cycles) (any := any) (image := image) (a := 0x200) h
        (by rw [hph]; exact nofun) le_rfl (by omega)
    have happly : Session.apply any (.load image) b.session = .ok ⟨b.session.core.loadImage image, .loaded⟩ :=
      (if_neg (Nat.not_lt_of_le hfit)).trans (if_pos hph)
    exact ⟨_, d, happly, hd, hcore, by rw [Block.busy, hidle]; rfl⟩
  case both =>
    rw [Block.edge_loadByte_writeKeys h hph]
    refine ⟨?keysFirst, ?byteFirst⟩
    case keysFirst =>
      rw [Block.edges, Block.edge_writeKeys h]
      exact ((Block.edges_singleton _ _).trans
        (Block.edge_loadByte (b := ⟨⟨b.session.core.setKeys k, b.session.phase⟩, none⟩) rfl hph a v)).symm
    case byteFirst =>
      rw [Block.edges, Block.edge_loadByte h hph]
      split
      · rfl
      · exact ((Block.edges_singleton _ _).trans (Block.edge_writeKeys (b := b.loadOne a v) rfl k)).symm
  case lateByte =>
    rw [Block.edge_of_not_busy h, hph]
    rfl
  case lateRequest =>
    rw [Block.edge_of_not_busy h, Block.edge_of_not_busy h, hph, Pins.accepted_running, Pins.accepted_running]

/-! The read ports. -/

/-- Settles O55: each part of the state is the value read at one selector or the cells read one by one. -/
theorem readPortsShowTheWholeState : Obligations.ReadPortsShowTheWholeState := by
  unfold Obligations.ReadPortsShowTheWholeState
  refine ⟨fun b c hsel hfb => ?parts, fun b f h => ?faulted⟩
  case parts =>
    have hfault : c.session.core.fault = b.session.core.fault := InspData.fault.inj (hsel .fault)
    refine ⟨fun r => InspData.byte.inj (hsel (.reg r)), InspData.word.inj (hsel .pc), InspData.word.inj (hsel .idx),
      ⟨InspData.count.inj (hsel .sp), fun j => InspData.word.inj (hsel (.stack j))⟩,
      ⟨InspData.byte.inj (hsel .dt), InspData.byte.inj (hsel .st)⟩, ?keys, fun x y => hfb (.ofFin x) (.ofFin y), ?mem,
      InspData.word.inj (hsel .ir), hfault, congrArg Option.isSome hfault⟩
    case keys =>
      exact BitVec.eq_of_getLsbD_eq fun k hk => InspData.bit.inj (hsel (.key ⟨k, hk⟩))
    case mem =>
      intro a ha
      have haddr : (BitVec.ofNat 12 a).toNat = a := by rw [BitVec.toNat_ofNat]; omega
      exact haddr ▸ InspData.byte.inj (hsel (.mem (BitVec.ofNat 12 a)))
  case faulted => exact congrArg Option.isSome (InspData.fault.inj h)

end Sys2Proof.Machine
end
